-- ==== Sys2Proof/Word.lean ====
section
/-! DEFINITION. The bytes, the masking key and the bit slices the spec's rules are written with. -/

namespace Sys2Proof

/-- One byte of a buffer or of a frame; bit 7 is the most significant (00_scope R10). -/
abbrev Byte := BitVec 8

/-- The masking key `K[0]`, `K[1]`, `K[2]`, `K[3]` in index order (10_state R28). It is four bytes and no integer
(20_memory R41). -/
structure Key where
  k0 : Byte
  k1 : Byte
  k2 : Byte
  k3 : Byte
deriving DecidableEq, Repr, Inhabited

end Sys2Proof
end

