-- ==== Sys2Proof/Config.lean ====
section
/-! DEFINITION. What an instance of the block fixes (00_scope R9) and the values the spec leaves free. -/

namespace Sys2Proof

/-- The open parameters of an instance (00_scope R9, 10_state R33). They stand in the state, where no step writes them, so
that a statement about every state is one about every instance (log 1, log 2). -/
structure Config where
  /-- MAX_COUNT, the largest `req_count` accepted: any value from 0 to 2^63 - 1 (R9, D7). -/
  maxCount : Fin (2 ^ 63)
  /-- N_REQ, how many hosts may have a request waiting: at least 1 (R9, D12). -/
  nReq : Nat
deriving DecidableEq, Repr

/-- MAX_COUNT at the default of R9, N_REQ at its least value (DESIGN CHOICE, log 2). -/
def Config.default : Config where
  maxCount := ⟨2 ^ 63 - 1, by decide⟩
  nReq := 1

/-- FREE VALUE (log 4): what the entropy source answers to its n-th draw that no `.key` line pins. Nothing constrains it
(42_mask_unit R120, R127; U2, U5). -/
opaque Config.freeKey : Nat → Key

/-- FREE VALUE (log 7): which of several waiting requests is served at the n-th choice (60_exceptions R148, U15). It is
reduced modulo the number of waiting requests. -/
opaque Config.freeChoice : Nat → Nat

/-- FREE VALUE (log 7): how often the oldest waiting request may be passed over, drawn at the n-th choice. Nothing constrains
it; that it is a number, and not without end, is the weak fairness of 60_exceptions R148 (D12). -/
opaque Config.freePatience : Nat → Nat

end Sys2Proof
end

