-- ==== Sys2Proof/Syntax.lean ====
section
/-! DEFINITION. The request record (10_state R26) and the operations of spec/opcode_table.json, one constructor a row. -/

namespace Sys2Proof

/-- The request record of one ENCODE (10_state R26): parallel fields, no packed word (30_encoding R77). `buf` names the
buffer behind the byte read port `req_buf`; `host` is the identity of the requester, which is part of the request as far
as routing the response goes (10_state R33). -/
structure Request where
  host   : Nat
  opcode : BitVec 8
  final  : Bool
  offset : BitVec 64
  count  : BitVec 64
  buflen : BitVec 64
  buf    : Nat
deriving DecidableEq, Repr

/-- The record whose every field is zero. -/
def Request.zero : Request where
  host := 0
  opcode := 0
  final := false
  offset := 0
  count := 0
  buflen := 0
  buf := 0

/-- The operations of spec/opcode_table.json. The operands are those the pseudocode of 40 to 42 passes, or, for the frame
formats, the fields of the row's pattern (log 11). -/
inductive Instr where
  /-- ENCODE (40_encode_command R85). -/
  | encode (r : Request)
  /-- FRAME.L7 (30_encoding R63): FIN, opcode, and the count in the 7-bit field. -/
  | frameL7 (fin : Bool) (opc : BitVec 4) (len : BitVec 7)
  /-- FRAME.L16 (30_encoding R64): FIN, opcode, and the count in the 16-bit extension. -/
  | frameL16 (fin : Bool) (opc : BitVec 4) (n : BitVec 16)
  /-- FRAME.L64 (30_encoding R65): FIN, opcode, and the count in the 64-bit extension, whose first bit is 0. -/
  | frameL64 (fin : Bool) (opc : BitVec 4) (n : BitVec 63)
  /-- FE.CHECK (40_encode_command R86). -/
  | feCheck (r : Request)
  /-- HP.LENSEL (41_header_packer R105). -/
  | hpLensel (cnt : BitVec 64)
  /-- HP.BYTE0 (41_header_packer R106). -/
  | hpByte0 (fin : Bool) (opc : BitVec 4)
  /-- HP.BYTE1 (41_header_packer R107). -/
  | hpByte1 (l7 : BitVec 7)
  /-- HP.EXT16 (41_header_packer R108); the operand is `CNT[15:0]`. -/
  | hpExt16 (n : BitVec 16)
  /-- HP.EXT64 (41_header_packer R109); the operand is `CNT[62:0]`, `CNT[63]` being 0. -/
  | hpExt64 (n : BitVec 63)
  /-- MK.KEYGEN (42_mask_unit R120). -/
  | mkKeygen
  /-- MK.KEYWR (42_mask_unit R121); `H` is read from its register. -/
  | mkKeywr (k : Key)
  /-- MK.XOR (42_mask_unit R122) for the payload index `I`; `OFF`, `H` and `K` are read from their registers. -/
  | mkXor (idx : BitVec 64)
deriving DecidableEq, Repr

end Sys2Proof
end

