-- ==== Sys2Proof/WellFormed.lean ====
section
/-! DEFINITION. Which operand values an operation can carry, beyond what the operand types already say. -/

namespace Sys2Proof

/-- `req_buflen` is at most 2^63 - 1 (00_scope R9, 10_state R26). -/
def Request.legal (r : Request) : Bool := decide (r.buflen.toNat < 2 ^ 63)

/-- The operand ranges of the rules:
`req_buflen` at most 2^63 - 1 (R26);
the 7-bit length field of format L7 at most 125, since 126 and 127 are sentinels (R73, R78);
`CNT` of HP.LENSEL at most 2^63 - 1, "already checked" (R105);
the payload index below 2^63, since `I < CNT` (R122). -/
def Instr.wf : Instr → Bool
  | .encode r => r.legal
  | .frameL7 _ _ len => decide (len.toNat ≤ 125)
  | .frameL16 _ _ _ => true
  | .frameL64 _ _ _ => true
  | .feCheck r => r.legal
  | .hpLensel cnt => decide (cnt.toNat < 2 ^ 63)
  | .hpByte0 _ _ => true
  | .hpByte1 _ => true
  | .hpExt16 _ => true
  | .hpExt64 _ => true
  | .mkKeygen => true
  | .mkKeywr _ => true
  | .mkXor idx => decide (idx.toNat < 2 ^ 63)

/-- The instruction is well formed. -/
abbrev WellFormed (i : Instr) : Prop := i.wf = true

end Sys2Proof
end

