-- ==== Sys2Proof/Decode.lean ====
section
/-! DEFINITION. The words operations are presented in, their decoder and encoder, and the frame recogniser of
30_encoding R78. The host's only command is a record of parallel fields (R77); the bits of the other rows are the patterns
of spec/opcode_table.json, followed by the operands the table gives no bits (log 10). -/

namespace Sys2Proof

/-- The rows of spec/opcode_table.json that are presented as bytes. -/
inductive BitRow where
  | frameL7 | frameL16 | frameL64
  | hpLensel | hpByte0 | hpByte1 | hpExt16 | hpExt64
  | mkKeygen | mkKeywr | mkXor
deriving DecidableEq, Repr

/-- An operation as it is presented to the block. The table's patterns overlap (30_encoding R81), so a word says which
row it belongs to (DESIGN CHOICE, log 8). -/
inductive OpWord where
  /-- The request record at the request port (R77). -/
  | request (r : Request)
  /-- The same record at the input of FE.CHECK (R86). -/
  | checkRequest (r : Request)
  /-- The bits of a sub-unit operation or of a frame header (R78, R81). -/
  | bits (row : BitRow) (bs : List Byte)
deriving DecidableEq, Repr

/-- Why a word is no operation. -/
inductive DecodeError where
  /-- The word has too few or too many bytes for its row. -/
  | wrongLength
  /-- A bit the pattern fixes to 0 is set: RSV1 to RSV3 (R72). -/
  | reservedBits
  /-- The MASK bit is clear (R97). -/
  | unmasked
  /-- The length field selects another frame format (R73, R78). -/
  | otherFormat
  /-- The top bit of a 64-bit length is set (R74). -/
  | lengthTopBit
  /-- `req_buflen` is above 2^63 - 1 (R26). -/
  | bufferLength
  /-- A count or an index is above 2^63 - 1 (R105, R122). -/
  | countRange
deriving DecidableEq, Repr

/-- Eight bytes, the first the most significant, as one 64-bit value. -/
def join64 (e0 e1 e2 e3 e4 e5 e6 e7 : Byte) : BitVec 64 :=
  e0 ++ e1 ++ e2 ++ e3 ++ e4 ++ e5 ++ e6 ++ e7

/-- A 64-bit value as eight bytes, the most significant first (20_memory R40). -/
def split64 (v : BitVec 64) : List Byte :=
  [v.extractLsb 63 56, v.extractLsb 55 48, v.extractLsb 47 40, v.extractLsb 39 32,
   v.extractLsb 31 24, v.extractLsb 23 16, v.extractLsb 15 8, v.extractLsb 7 0]

/-- A 16-bit value as two bytes, the most significant first (20_memory R40). -/
def split16 (v : BitVec 16) : List Byte := [v.extractLsb 15 8, v.extractLsb 7 0]

/-- The pattern `f000oooo` of byte 0 (R61, R106). -/
def byte0 (fin : Bool) (opc : BitVec 4) : Byte :=
  (if fin then 0x80#8 else 0x00#8) ||| opc.setWidth 8

/-- The pattern `1lllllll` of byte 1 (R62, R107). -/
def byte1 (l7 : BitVec 7) : Byte := 0x80#8 ||| l7.setWidth 8

/-- Reads the header at the front of a byte sequence and says which of the three formats it is, with the bytes after the
header (R70, R78). It recognises the block's own output and is no receive path (R78, N14). -/
def recognise : List Byte → Except DecodeError (Instr × List Byte)
  | b0 :: b1 :: rest =>
    if b0.extractLsb 6 4 ≠ 0 then .error .reservedBits
    else if b1.getLsbD 7 = false then .error .unmasked
    else if b1.extractLsb 6 0 = 126#7 then
      match rest with
      | n1 :: n0 :: rest => .ok (.frameL16 (b0.getLsbD 7) (b0.extractLsb 3 0) (n1 ++ n0), rest)
      | _ => .error .wrongLength
    else if b1.extractLsb 6 0 = 127#7 then
      match rest with
      | e0 :: e1 :: e2 :: e3 :: e4 :: e5 :: e6 :: e7 :: rest =>
        if e0.getLsbD 7 then .error .lengthTopBit
        else .ok (.frameL64 (b0.getLsbD 7) (b0.extractLsb 3 0)
          ((join64 e0 e1 e2 e3 e4 e5 e6 e7).setWidth 63), rest)
      | _ => .error .wrongLength
    else .ok (.frameL7 (b0.getLsbD 7) (b0.extractLsb 3 0) (b1.extractLsb 6 0), rest)
  | _ => .error .wrongLength

/-- A whole frame header as one word: nothing may follow it. -/
def decodeHeader (bs : List Byte) : Except DecodeError Instr :=
  match recognise bs with
  | .ok (i, []) => .ok i
  | .ok (_, _ :: _) => .error .wrongLength
  | .error e => .error e

/-- The frame format an instruction is, if it is one. -/
def Instr.frameRow : Instr → Option BitRow
  | .frameL7 _ _ _ => some .frameL7
  | .frameL16 _ _ _ => some .frameL16
  | .frameL64 _ _ _ => some .frameL64
  | .encode _ => none
  | .feCheck _ => none
  | .hpLensel _ => none
  | .hpByte0 _ _ => none
  | .hpByte1 _ => none
  | .hpExt16 _ => none
  | .hpExt64 _ => none
  | .mkKeygen => none
  | .mkKeywr _ => none
  | .mkXor _ => none

/-- A frame header that must be of the given format. -/
def decodeFrameRow (row : BitRow) (bs : List Byte) : Except DecodeError Instr :=
  match decodeHeader bs with
  | .ok i => if i.frameRow = some row then .ok i else .error .otherFormat
  | .error e => .error e

/-- An operand of 64 bits that is at most 2^63 - 1. -/
def decodeOperand64 (f : BitVec 64 → Instr) : List Byte → Except DecodeError Instr
  | [e0, e1, e2, e3, e4, e5, e6, e7] =>
    if (join64 e0 e1 e2 e3 e4 e5 e6 e7).toNat < 2 ^ 63
    then .ok (f (join64 e0 e1 e2 e3 e4 e5 e6 e7)) else .error .countRange
  | _ => .error .wrongLength

/-- HP.BYTE0 from its pattern `f000oooo`. -/
def decodeByte0 : List Byte → Except DecodeError Instr
  | [b] => if b.extractLsb 6 4 ≠ 0 then .error .reservedBits
           else .ok (.hpByte0 (b.getLsbD 7) (b.extractLsb 3 0))
  | _ => .error .wrongLength

/-- HP.BYTE1 from its pattern `1lllllll`. -/
def decodeByte1 : List Byte → Except DecodeError Instr
  | [b] => if b.getLsbD 7 = false then .error .unmasked else .ok (.hpByte1 (b.extractLsb 6 0))
  | _ => .error .wrongLength

/-- HP.EXT16 from its 16 bits `n`. -/
def decodeExt16 : List Byte → Except DecodeError Instr
  | [n1, n0] => .ok (.hpExt16 (n1 ++ n0))
  | _ => .error .wrongLength

/-- HP.EXT64 from its pattern, `0` and 63 bits `n`. -/
def decodeExt64 : List Byte → Except DecodeError Instr
  | [e0, e1, e2, e3, e4, e5, e6, e7] =>
    if e0.getLsbD 7 then .error .lengthTopBit
    else .ok (.hpExt64 ((join64 e0 e1 e2 e3 e4 e5 e6 e7).setWidth 63))
  | _ => .error .wrongLength

/-- MK.KEYGEN has no bits. -/
def decodeKeygen : List Byte → Except DecodeError Instr
  | [] => .ok .mkKeygen
  | _ :: _ => .error .wrongLength

/-- MK.KEYWR from its 32 bits `k`: `K[0]` first. -/
def decodeKeywr : List Byte → Except DecodeError Instr
  | [k0, k1, k2, k3] => .ok (.mkKeywr ⟨k0, k1, k2, k3⟩)
  | _ => .error .wrongLength

/-- The operation a word is presented for, or why there is none; total on every word. -/
def decode : OpWord → Except DecodeError Instr
  | .request r => if r.legal then .ok (.encode r) else .error .bufferLength
  | .checkRequest r => if r.legal then .ok (.feCheck r) else .error .bufferLength
  | .bits .frameL7 bs => decodeFrameRow .frameL7 bs
  | .bits .frameL16 bs => decodeFrameRow .frameL16 bs
  | .bits .frameL64 bs => decodeFrameRow .frameL64 bs
  | .bits .hpLensel bs => decodeOperand64 .hpLensel bs
  | .bits .hpByte0 bs => decodeByte0 bs
  | .bits .hpByte1 bs => decodeByte1 bs
  | .bits .hpExt16 bs => decodeExt16 bs
  | .bits .hpExt64 bs => decodeExt64 bs
  | .bits .mkKeygen bs => decodeKeygen bs
  | .bits .mkKeywr bs => decodeKeywr bs
  | .bits .mkXor bs => decodeOperand64 .mkXor bs

/-- The word of an operation, from the patterns of 30_encoding (R61 to R65, R77, R81). -/
def encode : Instr → OpWord
  | .encode r => .request r
  | .frameL7 fin opc len => .bits .frameL7 [byte0 fin opc, byte1 len]
  | .frameL16 fin opc n => .bits .frameL16 (byte0 fin opc :: byte1 126#7 :: split16 n)
  | .frameL64 fin opc n => .bits .frameL64 (byte0 fin opc :: byte1 127#7 :: split64 (n.setWidth 64))
  | .feCheck r => .checkRequest r
  | .hpLensel cnt => .bits .hpLensel (split64 cnt)
  | .hpByte0 fin opc => .bits .hpByte0 [byte0 fin opc]
  | .hpByte1 l7 => .bits .hpByte1 [byte1 l7]
  | .hpExt16 n => .bits .hpExt16 (split16 n)
  | .hpExt64 n => .bits .hpExt64 (split64 (n.setWidth 64))
  | .mkKeygen => .bits .mkKeygen []
  | .mkKeywr k => .bits .mkKeywr [k.k0, k.k1, k.k2, k.k3]
  | .mkXor idx => .bits .mkXor (split64 idx)

/-- `match` and `mask` of a frame-format row over `W = F[0] * 256 + F[1]` (R78). -/
structure FramePattern where
  mask    : BitVec 16
  pattern : BitVec 16
deriving DecidableEq, Repr

/-- The row FRAME.L7; its further condition is `W & 0x7F <= 125`. -/
def patternL7 : FramePattern := ⟨0x7080#16, 0x0080#16⟩
/-- The row FRAME.L16. -/
def patternL16 : FramePattern := ⟨0x70FF#16, 0x00FE#16⟩
/-- The row FRAME.L64; its further condition is that bit 7 of `F[2]` is 0. -/
def patternL64 : FramePattern := ⟨0x70FF#16, 0x00FF#16⟩

/-- `W` has the row's fixed bits. -/
def FramePattern.accepts (p : FramePattern) (W : BitVec 16) : Bool := W &&& p.mask == p.pattern

/-- The word a bit string of the table's width stands for, `bit 0` being the least significant bit of the pattern (R78,
R81). Several rows share a width: where the fixed bits do not decide, the order of the tests does (DESIGN CHOICE, log 10).
Bits the table does not give are 0. -/
def tableWord (nbits w : Nat) : Option OpWord :=
  if nbits = 0 then some (.request Request.zero)
  else if nbits = 8 then
    if (BitVec.ofNat 8 w) &&& 0x80#8 = 0x80#8 then some (.bits .hpByte1 [BitVec.ofNat 8 w])
    else if (BitVec.ofNat 8 w) &&& 0x70#8 = 0x00#8 then some (.bits .hpByte0 [BitVec.ofNat 8 w])
    else some (.bits .mkXor (split64 0))
  else if nbits = 16 then
    if patternL16.accepts (BitVec.ofNat 16 w) then
      some (.bits .frameL16 (split16 (BitVec.ofNat 16 w) ++ split16 0))
    else if patternL64.accepts (BitVec.ofNat 16 w) then
      some (.bits .frameL64 (split16 (BitVec.ofNat 16 w) ++ split64 0))
    else if patternL7.accepts (BitVec.ofNat 16 w) then
      some (.bits .frameL7 (split16 (BitVec.ofNat 16 w)))
    else some (.bits .hpExt16 (split16 (BitVec.ofNat 16 w)))
  else if nbits = 32 then
    some (.bits .mkKeywr [(BitVec.ofNat 32 w).extractLsb 31 24, (BitVec.ofNat 32 w).extractLsb 23 16,
      (BitVec.ofNat 32 w).extractLsb 15 8, (BitVec.ofNat 32 w).extractLsb 7 0])
  else if nbits = 64 then some (.bits .hpExt64 (split64 (BitVec.ofNat 64 w)))
  else none

/-- The instruction the decoder reads from a word numbered as spec/opcode_table.json numbers it. -/
def decodeTableWord (nbits w : Nat) : Option Instr :=
  match tableWord nbits w with
  | none => none
  | some o =>
    match decode o with
    | .ok i => some i
    | .error _ => none

end Sys2Proof
end

