-- ==== Sys2Proof/Machine/State.lean ====
section
/-! DEFINITION. Everything the spec gives the machine, as plain data (10_state), its fault and refusal reasons, and the
state after reset (10_state R34). -/

namespace Sys2Proof.Machine

/-- A byte space: a length, and the listed bytes with addresses strictly rising. SRC buffers (R29) and OUT (R30) are both
of this form. An index below `len` that is not listed reads as `unlistedByte` of Machine/Ops.lean (log 6). -/
structure Space where
  len   : Nat
  cells : List Host.Cell
deriving DecidableEq, Repr

/-- The transient registers of the reference decomposition (10_state R23, R28), under the spec's names. -/
structure Regs where
  /-- `OPC`, the checked opcode. -/
  opc  : BitVec 4
  /-- `FINr`. -/
  finr : Bool
  /-- `CNT`, the checked count; bit 63 is 0. -/
  cnt  : BitVec 64
  /-- `OFF`, the checked offset. -/
  off  : BitVec 64
  /-- `SEL`: 0 = L7, 1 = L16, 2 = L64. -/
  sel  : BitVec 2
  /-- `H`, the header size in bytes. -/
  h    : BitVec 4
  /-- `L7`, bits 6 to 0 of byte 1. -/
  l7   : BitVec 7
  /-- `K[0]` to `K[3]`. -/
  key  : Key
  /-- `I`, the payload index (log 16). -/
  idx  : BitVec 64
  /-- `P`, the output position of the latest write to OUT (log 16). -/
  pos  : BitVec 64
deriving DecidableEq, Repr

/-- What the transient registers hold outside a command: no trace of one (R32). The zeros are a DESIGN CHOICE (log 3):
R34 leaves the values unspecified, and R23 has each written before it is read. -/
def Regs.idle : Regs where
  opc := 0
  finr := false
  cnt := 0
  off := 0
  sel := 0
  h := 0
  l7 := 0
  key := ⟨0, 0, 0, 0⟩
  idx := 0
  pos := 0

/-- The entropy source seen from its draw port (10_state R31, 60_exceptions R147). -/
structure Entropy where
  /-- The answers that `.key` lines pin, next first (30_encoding R79, log 4). -/
  pinned    : List Key
  /-- How many draws were answered; the argument of the free value (log 4). -/
  drawn     : Nat
  /-- Whether the device answers draws (R164, U11, log 5). -/
  answering : Bool
deriving DecidableEq, Repr

/-- Which waiting request is served next (60_exceptions R148, log 7). -/
structure Arbiter where
  /-- Choices given in advance, next first; after them the choices are free. -/
  pinned    : List Nat
  /-- How many choices were made; the argument of the free values. -/
  used      : Nat
  /-- How often the oldest waiting request may still be passed over; none where that was not drawn yet for it. -/
  allowance : Option Nat
deriving DecidableEq, Repr

/-- The response record (10_state R27). -/
structure Response where
  status : BitVec 2
  len    : BitVec 64
  frame  : List Byte
deriving DecidableEq, Repr

/-- A response paired with its request (40_encode_command R94); the request names the host it goes to. -/
structure Delivered where
  req  : Request
  resp : Response
deriving DecidableEq, Repr

/-- The machine, with its host side: what stands in INVENTORY.md under State, one field each. -/
structure State where
  /-- MAX_COUNT and N_REQ (R9); no step writes it. -/
  cfg       : Config
  /-- The transient registers (R23). -/
  regs      : Regs
  /-- The command in progress (R34): its request record. -/
  cmd       : Option Request
  /-- OUT, the frame being built (R30). -/
  out       : Option Space
  /-- The response pending (R34). -/
  pending   : Option Delivered
  /-- The entropy source (R31). -/
  entropy   : Entropy
  /-- The hosts' buffers, SRC (R29); a request names one by its place. -/
  src       : List Space
  /-- The requests that wait (R148), as words. -/
  inbox     : List OpWord
  /-- The service choice (R148). -/
  arbiter   : Arbiter
  /-- The responses the hosts have received, oldest first (R94). -/
  delivered : List Delivered
deriving DecidableEq, Repr

/-- Why the machine stops. -/
inductive Fault where
  /-- Raised by a write to OUT while no frame is being built (R13, R46). Safe: the machine stops; no ENCODE reaches it. -/
  | writeWithoutFrame
  /-- Raised by a write at or beyond the frame's length (R13, R46). Safe: the machine stops; no ENCODE reaches it. -/
  | writeOutsideFrame
  /-- Raised by a source read with no command in progress, so with no buffer (R13, R45). Safe. -/
  | readWithoutCommand
  /-- Raised by a source read at or beyond `req_buflen` or the buffer's end (R13, R45, R49). Safe; no ENCODE reaches it. -/
  | readOutsideBuffer
  /-- Raised by a draw the entropy source does not answer: "ENCODE has no step while the draw has no answer" (R164, U11).
  Safe: stuck. -/
  | drawUnanswered
deriving DecidableEq, Repr

/-- Why an operation gets no meaning. -/
inductive Refusal where
  /-- Not modelled yet, by mnemonic. Safe. -/
  | notModelled (mnemonic : String)
  /-- Raised by ENCODE and FE.CHECK: `req_buflen` is not the true length of the buffer, or is above 2^63 - 1; the model
  refuses such a request (R167, U12, D8). Safe. -/
  | bufferLengthMisstated
  /-- Raised by a host's store or declaration of a buffer, between commands: it would change the payload of a request that has
  no response yet; "the model gives such a run no meaning" (R51, R166, U3, D13, log 20). Safe. -/
  | payloadInUse
  /-- Raised by `step`: the word is no operation (log 8). Safe. -/
  | undecodable (e : DecodeError)
deriving DecidableEq, Repr

/-- The machine right after reset (R34, R160): no command in progress, no response pending, OUT not in being, the entropy
source unspecified (its answers are free, log 4), the transient registers at the values of log 3. -/
def State.reset : State where
  cfg := Config.default
  regs := Regs.idle
  cmd := none
  out := none
  pending := none
  entropy := { pinned := [], drawn := 0, answering := true }
  src := []
  inbox := []
  arbiter := { pinned := [], used := 0, allowance := none }
  delivered := []

end Sys2Proof.Machine
end

