-- ==== Sys2Proof/Machine/Flags.lean ====
section
/-! DEFINITION. The block has no flags (10_state R24). What takes their place: the status codes of a response (R27, D4) and
the bits FIN, RSV, opcode, MASK and length of a frame's first two bytes (30_encoding R61, R62). -/

namespace Sys2Proof.Machine

/-- The three errors (60_exceptions R135 to R138); the list is complete. -/
inductive Err where
  | invalidRange
  | invalidOpcode
  | sizeError
deriving DecidableEq, Repr

/-- `resp_status` of an error (R135, R136, R137, D4). -/
def statusCode : Err → BitVec 2
  | .invalidRange => 1
  | .invalidOpcode => 2
  | .sizeError => 3

/-- `resp_status` of a success (R91). -/
def statusOk : BitVec 2 := 0

/-- The FIN bit of byte 0 (R61, R96). -/
def finBit (b0 : Byte) : Bool := b0.getLsbD 7

/-- RSV1 to RSV3 of byte 0 (R61, R72). -/
def rsvBits (b0 : Byte) : BitVec 3 := b0.extractLsb 6 4

/-- The opcode field of byte 0 (R61). -/
def opcodeField (b0 : Byte) : BitVec 4 := b0.extractLsb 3 0

/-- The MASK bit of byte 1 (R62, R97). -/
def maskBit (b1 : Byte) : Bool := b1.getLsbD 7

/-- The field `len7` of byte 1 (R62, R73). -/
def len7 (b1 : Byte) : BitVec 7 := b1.extractLsb 6 0

end Sys2Proof.Machine
end

