-- ==== Sys2Proof/Machine/Operands.lean ====
section
/-! DEFINITION. What is computed from operands alone: the length laws (00_scope R14), the header shape (41_header_packer
R105), the three tests of FE.CHECK (40_encode_command R86), the key lanes, and the header and the masked payload as one
function each (R110, R125). -/

namespace Sys2Proof.Machine

/-- `hdrlen(count)` (R14). -/
def hdrlen (count : Nat) : Nat := if count < 126 then 2 else if count < 65536 then 4 else 10

/-- `framelen(count)` (R14). -/
def framelen (count : Nat) : Nat := hdrlen count + 4 + count

/-- The outputs of HP.LENSEL (R105). -/
structure Shape where
  sel : BitVec 2
  h   : BitVec 4
  l7  : BitVec 7
deriving DecidableEq, Repr

/-- The header shape of a count (R105); the comparisons are unsigned and on all 64 bits. -/
def shape (cnt : BitVec 64) : Shape :=
  if cnt.toNat < 126 then ⟨0, 2, cnt.extractLsb 6 0⟩
  else if cnt.toNat < 65536 then ⟨1, 4, 126⟩
  else ⟨2, 10, 127⟩

/-- The header size a reader finds from byte 1 (R70). -/
def headerSizeOf (b1 : Byte) : Nat :=
  if (len7 b1).toNat ≤ 125 then 2 else if len7 b1 = 126 then 4 else 10

/-- `req_opcode > 15` (R136). -/
def opcodeIllegal (r : Request) : Bool := decide (r.opcode.toNat > 15)

/-- `req_count > MAX_COUNT` (R137). -/
def countTooLarge (c : Config) (r : Request) : Bool := decide (r.count.toNat > c.maxCount.val)

/-- `req_offset + req_count > req_buflen`, the sum without wrap-around (R86, R135). -/
def rangeOutside (r : Request) : Bool := decide (r.offset.toNat + r.count.toNat > r.buflen.toNat)

/-- The three tests of FE.CHECK in their order: opcode, size, range (R86, R140); the first that holds names the error. -/
def checkRequest (c : Config) (r : Request) : Option Err :=
  if opcodeIllegal r then some .invalidOpcode
  else if countTooLarge c r then some .sizeError
  else if rangeOutside r then some .invalidRange
  else none

/-- `K[i mod 4]`, the key byte of payload index `i` (R122). -/
def keyLane (k : Key) (i : Nat) : Byte :=
  match i % 4 with
  | 0 => k.k0
  | 1 => k.k1
  | 2 => k.k2
  | _ => k.k3

/-- The key as it is laid down (R41, R121). -/
def keyBytes (k : Key) : List Byte := [k.k0, k.k1, k.k2, k.k3]

/-- `header(f, o, c)` (R110). -/
def header (fin : Bool) (opc : BitVec 4) (c : BitVec 64) : List Byte :=
  if c.toNat < 126 then [byte0 fin opc, byte1 (c.extractLsb 6 0)]
  else if c.toNat < 65536 then
    [byte0 fin opc, 0xFE#8, c.extractLsb 15 8, c.extractLsb 7 0]
  else
    [byte0 fin opc, 0xFF#8, c.extractLsb 63 56, c.extractLsb 55 48, c.extractLsb 47 40, c.extractLsb 39 32,
      c.extractLsb 31 24, c.extractLsb 23 16, c.extractLsb 15 8, c.extractLsb 7 0]

/-- `masked(k, p)` from payload index `i` on. -/
def maskedFrom (k : Key) : Nat → List Byte → List Byte
  | _, [] => []
  | i, b :: p => (b ^^^ keyLane k i) :: maskedFrom k (i + 1) p

/-- `masked(k, p)` (R125): byte `i` is `p[i] XOR k[i mod 4]`. -/
def masked (k : Key) (p : List Byte) : List Byte := maskedFrom k 0 p

/-- `rot(k, r)` (R125): `rot(k, r)[j] = k[(j + r) mod 4]`. -/
def rot (k : Key) (r : Nat) : Key := ⟨keyLane k r, keyLane k (r + 1), keyLane k (r + 2), keyLane k (r + 3)⟩

/-- The whole frame as one function of FIN, opcode, count, key and payload (R60). -/
def frameOf (fin : Bool) (opc : BitVec 4) (c : BitVec 64) (k : Key) (payload : List Byte) : List Byte :=
  header fin opc c ++ keyBytes k ++ masked k payload

end Sys2Proof.Machine
end

