-- ==== Sys2Proof/Machine/Ops.lean ====
section
/-! DEFINITION. The named operations over memory and registers, ending a command with a response or an error, the draw, and
what the host and the reset event can do. -/

namespace Sys2Proof.Machine

/-- What a meaning answers. -/
abbrev Result := Host.Outcome State Fault Refusal

/-- Goes on with `k` after a next state; a fault or a refusal ends the operation. -/
def andThen (o : Result) (k : State → Result) : Result :=
  match o with
  | .next s => k s
  | .fault r => .fault r
  | .refused r => .refused r

/-- What an index that is not listed reads as (DESIGN CHOICE, log 6). -/
def unlistedByte : Byte := 0

/-- The byte at an address. -/
def readCells : List Host.Cell → Nat → Byte
  | [], _ => unlistedByte
  | (a, v) :: cs, x => if a = x then v else readCells cs x

/-- Sets the byte at an address and keeps the canonical form. -/
def writeCells : List Host.Cell → Nat → Byte → List Host.Cell
  | [], x, v => if v = unlistedByte then [] else [(x, v)]
  | (a, w) :: cs, x, v =>
    if a < x then (a, w) :: writeCells cs x v
    else if a = x then (if v = unlistedByte then cs else (x, v) :: cs)
    else (if v = unlistedByte then (a, w) :: cs else (x, v) :: (a, w) :: cs)

/-- Addresses from `lo` up to below `n`, strictly rising, no entry equal to what an unlisted address reads as. -/
def cellsFrom (n : Nat) : Nat → List Host.Cell → Bool
  | _, [] => true
  | lo, (a, v) :: cs => decide (lo ≤ a) && decide (a < n) && decide (v ≠ unlistedByte) && cellsFrom n (a + 1) cs

/-- The canonical form of a byte space: its listed bytes lie inside it, rising, none equal to the unlisted byte. -/
def Space.wf (sp : Space) : Bool := cellsFrom sp.len 0 sp.cells

/-- The byte at an index of a byte space. -/
def Space.read (sp : Space) (a : Nat) : Byte := readCells sp.cells a

/-- The space with one byte set. -/
def Space.write (sp : Space) (a : Nat) (v : Byte) : Space := { sp with cells := writeCells sp.cells a v }

/-- `n` bytes from index `a` on. -/
def Space.slice (sp : Space) (a n : Nat) : List Byte := (List.range n).map (fun i => sp.read (a + i))

/-- All bytes of the space, in index order. -/
def Space.bytes (sp : Space) : List Byte := sp.slice 0 sp.len

/-- The listed cells of a byte sequence from address `a` on. -/
def cellsOf : Nat → List Byte → List Host.Cell
  | _, [] => []
  | a, b :: bs => if b = unlistedByte then cellsOf (a + 1) bs else (a, b) :: cellsOf (a + 1) bs

/-- The buffer that holds a byte sequence. -/
def Space.ofBytes (bs : List Byte) : Space := { len := bs.length, cells := cellsOf 0 bs }

/-- The memory of a state is in canonical form: every buffer, and OUT where it is in being. -/
def memoryWf (s : State) : Bool :=
  s.src.all Space.wf && (match s.out with | none => true | some f => f.wf)

/-- The buffer behind a request's read port; a name with no buffer is a buffer of no bytes (log 15). -/
def bufferOf (s : State) (r : Request) : Space := s.src.getD r.buf { len := 0, cells := [] }

/-- The payload of a request: `req_count` bytes of its buffer from `req_offset` on (R67). -/
def payloadOf (s : State) (r : Request) : List Byte := (bufferOf s r).slice r.offset.toNat r.count.toNat

/-- The host states the true length, and it is at most 2^63 - 1 (R26, R167). -/
def lengthTrue (s : State) (r : Request) : Bool :=
  decide (r.buflen.toNat = (bufferOf s r).len) && r.legal

/-- `MemWrite(OUT, p, 1, v)` (R13): sets byte `p` of the frame being built; `P` is the position written (R23). -/
def memWrite (p : Nat) (v : Byte) (s : State) : Result :=
  match s.out with
  | none => .fault .writeWithoutFrame
  | some f =>
    if p < f.len then
      .next { s with out := some (f.write p v), regs := { s.regs with pos := BitVec.ofNat 64 p } }
    else .fault .writeOutsideFrame

/-- Writes bytes at `p`, `p + 1`, ... in that order. -/
def memWriteList : Nat → List Byte → State → Result
  | _, [], s => .next s
  | p, v :: vs, s => andThen (memWrite p v s) (memWriteList (p + 1) vs)

/-- `MemRead(SRC, a, 1)` (R13, R45): the byte at index `a` of the buffer of the command in progress, legal only for
`a < req_buflen`. -/
def memRead (a : Nat) (s : State) : Except Fault Byte :=
  match s.cmd with
  | none => .error .readWithoutCommand
  | some r =>
    if a < r.buflen.toNat ∧ a < (bufferOf s r).len then .ok ((bufferOf s r).read a)
    else .error .readOutsideBuffer

/-- `OUT <- new frame of H + 4 + CNT bytes` (R85 step 2, R88). `I` and `P` start at 0 (R22, log 16). -/
def newFrame (s : State) : State :=
  { s with
    out := some { len := s.regs.h.toNat + 4 + s.regs.cnt.toNat, cells := [] }
    regs := { s.regs with idx := 0, pos := 0 } }

/-- The last line of FE.CHECK: the checked operands go to their registers (R86). That its request is then the command in progress
(R34), also where FE.CHECK is performed by itself and its step is over, is a DESIGN CHOICE (log 23): R86 latches four registers
and says nothing of it. -/
def latchRequest (r : Request) (s : State) : State :=
  { s with
    cmd := some r
    regs := { s.regs with opc := r.opcode.extractLsb 3 0, finr := r.final, cnt := r.count, off := r.offset } }

/-- Nothing of a command is kept (R32, R91): the registers, the command and OUT are given up. -/
def forget (s : State) : State := { s with regs := Regs.idle, cmd := none, out := none }

/-- The response of an error: its code, no length, no frame (R141). -/
def errorResponse (e : Err) : Response := { status := statusCode e, len := 0, frame := [] }

/-- `raise E` (R141): the command ends at once with the error response; nothing else changes. -/
def raiseError (e : Err) (r : Request) (s : State) : State :=
  { forget s with pending := some { req := r, resp := errorResponse e } }

/-- The length and the bytes of OUT, as a success response (R27, R91). -/
def okResponse (s : State) : Response :=
  match s.out with
  | none => { status := statusOk, len := 0, frame := [] }
  | some f => { status := statusOk, len := BitVec.ofNat 64 f.len, frame := f.bytes }

/-- `respond(OK, OUT)` (R91): the command ends with the frame; the block keeps no trace of it. -/
def respondOk (r : Request) (s : State) : State :=
  { forget s with pending := some { req := r, resp := okResponse s } }

/-- The pending response goes whole to the host that made the request, which always accepts it (R27, R91, D24). -/
def deliver (s : State) : State :=
  match s.pending with
  | none => s
  | some d => { s with delivered := s.delivered ++ [d], pending := none }

/-- What the entropy source answers next: a pinned key, else a free one (R79, R120). -/
def Entropy.answer (e : Entropy) : Key :=
  match e.pinned with
  | [] => Config.freeKey e.drawn
  | k :: _ => k

/-- The entropy source after one draw. -/
def Entropy.advance (e : Entropy) : Entropy := { e with pinned := e.pinned.tail, drawn := e.drawn + 1 }

/-- The next service choice: one given in advance, else a free one (R148). -/
def Arbiter.answer (a : Arbiter) : Nat :=
  match a.pinned with
  | [] => Config.freeChoice a.used
  | n :: _ => n

/-- How often the oldest waiting request may still be passed over (R148: weak fairness). -/
def Arbiter.patience (a : Arbiter) : Nat :=
  match a.allowance with
  | none => Config.freePatience a.used
  | some n => n

/-- The place served next among `n` waiting requests, the oldest at place 0: any, but the oldest where it may be passed over no
more. -/
def Arbiter.pick (a : Arbiter) (n : Nat) : Nat := if a.patience = 0 then 0 else a.answer % n

/-- The arbiter after a choice that served place `k`: where the oldest was served, the next oldest has its own allowance. -/
def Arbiter.after (a : Arbiter) (k : Nat) : Arbiter where
  pinned := a.pinned.tail
  used := a.used + 1
  allowance := if k = 0 then none else some (a.patience - 1)

/-- The arbiter after the only request waiting was served: there was no choice. -/
def Arbiter.cleared (a : Arbiter) : Arbiter := { a with allowance := none }

/-- A host presents a request (R26). It is accepted while fewer than N_REQ wait (R9, R148), whichever host it is (R33); otherwise
the host has to wait. -/
def present (r : Request) (s : State) : Option State :=
  if s.inbox.length < s.cfg.nReq then some { s with inbox := s.inbox ++ [.request r] } else none

/-- The request record a waiting word carries. -/
def requestOfWord : OpWord → Option Request
  | .request r => some r
  | .checkRequest r => some r
  | .bits _ _ => none

/-- The requests made and not yet answered: those that wait, that of the command in progress, that of a pending response. -/
def openRequests (s : State) : List Request :=
  s.inbox.filterMap requestOfWord ++ s.cmd.toList ++ s.pending.toList.map Delivered.req

/-- Index `a` of buffer `buf` is in the payload range of the request, from `req_offset` up to below `req_offset + req_count`. -/
def inPayload (buf a : Nat) (r : Request) : Bool :=
  decide (r.buf = buf ∧ r.offset.toNat ≤ a ∧ a < r.offset.toNat + r.count.toNat)

/-- A host writes a byte of a buffer, between commands. An index outside the buffer is no byte of it. From request to response no
byte of the payload range may be written (R51, R166): such a run is refused (U3, log 20); bytes outside change freely. -/
def hostStore (buf a : Nat) (v : Byte) (s : State) : Result :=
  match s.src[buf]? with
  | none => .next s
  | some sp =>
    if a < sp.len then
      if (openRequests s).any (inPayload buf a) then .refused .payloadInUse
      else .next { s with src := s.src.set buf (sp.write a v) }
    else .next s

/-- A host declares the next buffer (R29, R79). Where a request without a response names that place already, the buffer it was
made with would change, and the run is refused (log 20). -/
def hostBuffer (bytes : List Byte) (s : State) : Result :=
  if (openRequests s).any (fun r => decide (r.buf = s.src.length)) then .refused .payloadInUse
  else .next { s with src := s.src ++ [Space.ofBytes bytes] }

/-- The entropy device starts or stops answering draws; the block has no part in it (R164). -/
def entropyAnswers (b : Bool) (s : State) : State := { s with entropy := { s.entropy with answering := b } }

/-- The reset event, between commands (R160): no command in progress, no response pending (one not yet delivered is lost,
whole), the registers and the entropy source unspecified: no answer of the source is known any more (R34, log 17). -/
def resetEvent (s : State) : State :=
  { forget s with pending := none, entropy := { s.entropy with pinned := [] } }

end Sys2Proof.Machine
end

