-- ==== Sys2Proof/Machine/HeaderPacker.lean ====
section
/-! DEFINITION. The header packer (41_header_packer): HP.LENSEL, HP.BYTE0, HP.BYTE1, HP.EXT16, HP.EXT64. -/

namespace Sys2Proof.Machine

/-- HP.LENSEL (R105): `SEL`, `H` and `L7` from `CNT`. -/
def execHpLensel (cnt : BitVec 64) (s : State) : Result :=
  .next { s with
    regs := { s.regs with sel := (shape cnt).sel, h := (shape cnt).h, l7 := (shape cnt).l7 } }

/-- HP.BYTE0 (R106): `F[0]`. -/
def execHpByte0 (fin : Bool) (opc : BitVec 4) (s : State) : Result := memWrite 0 (byte0 fin opc) s

/-- HP.BYTE1 (R107): `F[1]`. -/
def execHpByte1 (l7 : BitVec 7) (s : State) : Result := memWrite 1 (byte1 l7) s

/-- HP.EXT16 (R108): `F[2..3]`, performed exactly when `SEL = 1` (log 12). -/
def execHpExt16 (n : BitVec 16) (s : State) : Result :=
  if s.regs.sel = 1 then memWriteList 2 (split16 n) s else .next s

/-- HP.EXT64 (R109): `F[2..9]`, performed exactly when `SEL = 2` (log 12); the operand has 63 bits, `CNT[63]` is 0. -/
def execHpExt64 (n : BitVec 63) (s : State) : Result :=
  if s.regs.sel = 2 then memWriteList 2 (split64 (n.setWidth 64)) s else .next s

end Sys2Proof.Machine
end

