-- ==== Sys2Proof/Machine/MaskUnit.lean ====
section
/-! DEFINITION. The masking-key generator and the XOR unit (42_mask_unit): MK.KEYGEN, MK.KEYWR, MK.XOR and its loop. -/

namespace Sys2Proof.Machine

/-- MK.KEYGEN (R120): `K[0..3] <- Draw4()`. There is no step while the draw has no answer (R164, log 5). -/
def execMkKeygen (s : State) : Result :=
  if s.entropy.answering then
    .next { s with
      regs := { s.regs with key := s.entropy.answer }
      entropy := s.entropy.advance }
  else .fault .drawUnanswered

/-- MK.KEYWR (R121): the key goes to `F[H..H+3]` in index order. -/
def execMkKeywr (k : Key) (s : State) : Result := memWriteList s.regs.h.toNat (keyBytes k) s

/-- MK.XOR (R122): payload byte `OFF + I` XORed with `K[I mod 4]` goes to `F[H + 4 + I]`; no sum wraps (R12). -/
def execMkXor (idx : BitVec 64) (s : State) : Result :=
  match memRead (s.regs.off.toNat + idx.toNat) s with
  | .error f => .fault f
  | .ok b =>
    memWrite (s.regs.h.toNat + 4 + idx.toNat) (b ^^^ keyLane s.regs.key idx.toNat)
      { s with regs := { s.regs with idx := idx } }

/-- The payload loop (R123): MK.XOR for `n` indices from `i` on, ascending. -/
def payloadLoop : Nat → Nat → State → Result
  | 0, _, s => .next s
  | n + 1, i, s => andThen (execMkXor (BitVec.ofNat 64 i) s) (payloadLoop n (i + 1))

end Sys2Proof.Machine
end

