-- ==== Sys2Proof/Machine/FrameFormats.lean ====
section
/-! DEFINITION. Building a frame (steps 2 to 6 of 40_encode_command R85) and the three frame formats (30_encoding R63 to
R65). -/

namespace Sys2Proof.Machine

/-- Steps 2 to 6 of R85, from the registers FE.CHECK and HP.LENSEL have set: size OUT, bytes 0 and 1, the extension, the
key, the payload. -/
def buildFrame (s : State) : Result :=
  andThen (execHpByte0 s.regs.finr s.regs.opc (newFrame s)) fun s =>
  andThen (execHpByte1 s.regs.l7 s) fun s =>
  andThen (execHpExt16 (s.regs.cnt.extractLsb 15 0) s) fun s =>
  andThen (execHpExt64 (s.regs.cnt.extractLsb 62 0) s) fun s =>
  andThen (execMkKeygen s) fun s =>
  andThen (execMkKeywr s.regs.key s) fun s =>
  payloadLoop s.regs.cnt.toNat 0 s

/-- The frame of the given fields in OUT, where the count selects the format `sel` (R69, R70); a format the count does not
select is not performed (log 11). The payload comes from the command in progress, from `OFF` on. -/
def frameAs (sel : BitVec 2) (fin : Bool) (opc : BitVec 4) (cnt : BitVec 64) (s : State) : Result :=
  if (shape cnt).sel = sel then
    andThen (execHpLensel cnt { s with regs := { s.regs with finr := fin, opc := opc, cnt := cnt } }) buildFrame
  else .next s

/-- FRAME.L7 (R63), chosen when `count < 126`. -/
def execFrameL7 (fin : Bool) (opc : BitVec 4) (len : BitVec 7) (s : State) : Result :=
  frameAs 0 fin opc (len.setWidth 64) s

/-- FRAME.L16 (R64), chosen when `126 <= count < 65536`. -/
def execFrameL16 (fin : Bool) (opc : BitVec 4) (n : BitVec 16) (s : State) : Result :=
  frameAs 1 fin opc (n.setWidth 64) s

/-- FRAME.L64 (R65), chosen when `count >= 65536`. -/
def execFrameL64 (fin : Bool) (opc : BitVec 4) (n : BitVec 63) (s : State) : Result :=
  frameAs 2 fin opc (n.setWidth 64) s

end Sys2Proof.Machine
end

