-- ==== Sys2Proof/Machine/FrameControl.lean ====
section
/-! DEFINITION. Frame-encoder control (40_encode_command): FE.CHECK and ENCODE. -/

namespace Sys2Proof.Machine

/-- The tests of FE.CHECK (R86) and what follows them: a request with a false length is refused (R167), one that fails a
test ends with the error (R141), any other goes on with its operands latched. No buffer byte is read. -/
def checkThen (r : Request) (s : State) (k : State → Result) : Result :=
  if lengthTrue s r then
    match checkRequest s.cfg r with
    | some e => .next (raiseError e r s)
    | none => k (latchRequest r s)
  else .refused .bufferLengthMisstated

/-- FE.CHECK (R86). -/
def execFeCheck (r : Request) (s : State) : Result := checkThen r s .next

/-- ENCODE (R85): check, header shape, frame, response. -/
def execEncode (r : Request) (s : State) : Result :=
  checkThen r s fun s =>
    andThen (execHpLensel s.regs.cnt s) fun s =>
    andThen (buildFrame s) fun s =>
    .next (respondOk r s)

end Sys2Proof.Machine
end

