-- ==== Sys2Proof/Machine/Dispatch.lean ====
section
/-! DEFINITION. The one dispatch from an operation to its meaning, one arm per constructor. -/

namespace Sys2Proof.Machine

/-- One operation on a state. -/
def exec (i : Instr) (s : State) : Host.Outcome State Fault Refusal :=
  match i with
  | .encode r => Sys2Proof.Machine.execEncode r s
  | .frameL7 fin opc len => Sys2Proof.Machine.execFrameL7 fin opc len s
  | .frameL16 fin opc n => Sys2Proof.Machine.execFrameL16 fin opc n s
  | .frameL64 fin opc n => Sys2Proof.Machine.execFrameL64 fin opc n s
  | .feCheck r => Sys2Proof.Machine.execFeCheck r s
  | .hpLensel cnt => Sys2Proof.Machine.execHpLensel cnt s
  | .hpByte0 fin opc => Sys2Proof.Machine.execHpByte0 fin opc s
  | .hpByte1 l7 => Sys2Proof.Machine.execHpByte1 l7 s
  | .hpExt16 n => Sys2Proof.Machine.execHpExt16 n s
  | .hpExt64 n => Sys2Proof.Machine.execHpExt64 n s
  | .mkKeygen => Sys2Proof.Machine.execMkKeygen s
  | .mkKeywr k => Sys2Proof.Machine.execMkKeywr k s
  | .mkXor idx => Sys2Proof.Machine.execMkXor idx s

end Sys2Proof.Machine
end

