-- ==== Sys2Proof/Machine/Issue.lean ====
section
/-! DEFINITION. Where `step` takes its next operation from, and the setting an operation is performed in. -/

namespace Sys2Proof.Machine

/-- The next word, taken out of the inbox, which is in the order of arrival. With several waiting, any may be next, and each is
served eventually (60_exceptions R148): the arbiter picks one. -/
def takeWord (s : State) : Option (OpWord × State) :=
  match s.inbox with
  | [] => none
  | [w] => some (w, { s with inbox := [], arbiter := s.arbiter.cleared })
  | w :: v :: ws =>
    some ((w :: v :: ws).getD (s.arbiter.pick (ws.length + 2)) w,
      { s with
        inbox := (w :: v :: ws).eraseIdx (s.arbiter.pick (ws.length + 2))
        arbiter := s.arbiter.after (s.arbiter.pick (ws.length + 2)) })

/-- A state inside a command whose header shape is that of `cnt`, with OUT sized and a buffer of `cnt` bytes to read. -/
def insideCommand (cnt : BitVec 64) (s : State) : State :=
  { s with
    cmd := some { Request.zero with count := cnt, buflen := cnt, buf := s.src.length }
    src := s.src ++ [{ len := cnt.toNat, cells := [] }]
    out := some { len := framelen cnt.toNat, cells := [] }
    regs := { Regs.idle with cnt := cnt, sel := (shape cnt).sel, h := (shape cnt).h, l7 := (shape cnt).l7 } }

/-- The setting in which frame-encoder control performs an operation (R81, R85): an operation that writes OUT or reads a
payload is performed inside a command whose frame has been sized and whose buffer holds the payload; any other needs nothing
(log 14). -/
def settingFor (i : Instr) (s : State) : State :=
  match i with
  | .encode _ => s
  | .frameL7 _ _ len => insideCommand (len.setWidth 64) s
  | .frameL16 _ _ n => insideCommand (n.setWidth 64) s
  | .frameL64 _ _ n => insideCommand (n.setWidth 64) s
  | .feCheck _ => s
  | .hpLensel _ => s
  | .hpByte0 _ _ => insideCommand 0 s
  | .hpByte1 _ => insideCommand 0 s
  | .hpExt16 n => insideCommand (n.setWidth 64) s
  | .hpExt64 n => insideCommand (n.setWidth 64) s
  | .mkKeygen => s
  | .mkKeywr _ => insideCommand 0 s
  | .mkXor idx => insideCommand (idx + 1) s

/-- The state with a word of the opcode table as the only one waiting, in the setting its operation is performed in. -/
def placeWord (s : State) (nbits w : Nat) : State :=
  match tableWord nbits w with
  | none => s
  | some o =>
    match decode o with
    | .error _ => { s with inbox := [o] }
    | .ok i => { settingFor i s with inbox := [o] }

end Sys2Proof.Machine
end

