-- ==== Sys2Proof/Machine/Step.lean ====
section
/-! DEFINITION. One step: take a waiting word, decode it, perform it, hand over the response. -/

namespace Sys2Proof.Machine

/-- One step of the machine. With nothing waiting the block is idle and nothing changes (40_encode_command R94, log 13).
After the operation the response it left pending, if any, is delivered (R91). -/
def step (s : State) : Host.Outcome State Fault Refusal :=
  match takeWord s with
  | none => .next s
  | some (w, s) =>
    match decode w with
    | .error e => .refused (.undecodable e)
    | .ok i => andThen (exec i s) fun s => .next (deliver s)

/-- The state whose next step runs the operation the opcode table numbers so (log 14). -/
def State.withFetchWord (s : State) (nbits w : Nat) : State := placeWord s nbits w

end Sys2Proof.Machine
end

