-- ==== Sys2Proof/Machine/Script.lean ====
section
/-! DEFINITION. The host's side in the written form of 30_encoding R79 and R80: programs of `.buf`, `.key` and ENCODE lines,
and the adapter between software integers and request fields (70_reset_and_hazards R169). -/

namespace Sys2Proof.Machine

/-- The request field of a software opcode (R169): in 0 to 255 as it is, any other as 255, which the block rejects; never
reduced modulo the width (log 18). -/
def adaptOpcode (z : Int) : BitVec 8 := if 0 ≤ z ∧ z < 256 then BitVec.ofInt 8 z else 255

/-- The request field of a software count or offset (R169): in range as it is, a negative or larger one as 2^64 - 1, which
the block rejects (log 18). -/
def adaptWide (z : Int) : BitVec 64 := if 0 ≤ z ∧ z < 2 ^ 64 then BitVec.ofInt 64 z else BitVec.ofNat 64 (2 ^ 64 - 1)

/-- `ENCODE NAME, op, off, cnt, fin` of a host (R79); the buffer's true length goes with it (R167), and a fifth operand
left out means 1 (R80). -/
def requestOf (host buf : Nat) (op off cnt : Int) (fin : Option Bool) (s : State) : Request where
  host := host
  opcode := adaptOpcode op
  final := fin.getD true
  offset := adaptWide off
  count := adaptWide cnt
  buflen := BitVec.ofNat 64 (s.src.getD buf { len := 0, cells := [] }).len
  buf := buf

/-- A line of a program (R79). Buffers are named by their place. -/
inductive Line where
  /-- `.buf`: declares the next buffer. -/
  | buf (bytes : List Byte)
  /-- `.key`: pins the answer of the next draw not pinned yet. -/
  | key (k : Key)
  /-- `ENCODE`: one request. -/
  | encode (buf : Nat) (op off cnt : Int) (fin : Option Bool)
deriving DecidableEq, Repr

/-- Steps until `done` holds, at most `n` of them; none where a step gives no next state or `n` are not enough. -/
def stepUntil (done : State → Bool) : Nat → State → Option State
  | 0, s => if done s then some s else none
  | n + 1, s =>
    if done s then some s
    else
      match step s with
      | .next t => stepUntil done n t
      | .fault _ => none
      | .refused _ => none

/-- The request port takes another request (R148). -/
def hasRoom (s : State) : Bool := decide (s.inbox.length < s.cfg.nReq)

/-- The request waits no more: it has been served, and so its response delivered. -/
def isServed (r : Request) (s : State) : Bool := decide (OpWord.request r ∉ s.inbox)

/-- A request presented as soon as there is room, and steps until it has its response; requests of other hosts may be served
before it (R79, R148). Each step serves one, so as many steps as requests wait are enough. -/
def performRequest (r : Request) (s : State) : Option State :=
  match stepUntil hasRoom s.inbox.length s with
  | none => none
  | some s =>
    match present r s with
    | none => none
    | some s => stepUntil (isServed r) s.inbox.length s

/-- One line performed by a host: an ENCODE completes before the line is over (R79). There is no next state where a step gives
none or the line is refused. -/
def performLine (host : Nat) (l : Line) (s : State) : Option State :=
  match l with
  | .buf bytes =>
    match hostBuffer bytes s with
    | .next t => some t
    | .fault _ => none
    | .refused _ => none
  | .key k => some { s with entropy := { s.entropy with pinned := s.entropy.pinned ++ [k] } }
  | .encode buf op off cnt fin => performRequest (requestOf host buf op off cnt fin s) s

/-- A program of one host (R79): its lines in order. -/
def performLines (host : Nat) : List Line → State → Option State
  | [], s => some s
  | l :: ls, s =>
    match performLine host l s with
    | none => none
    | some s' => performLines host ls s'

end Sys2Proof.Machine
end

