-- ==== Sys2Proof/Safety.lean ====
section
/-! DEFINITION. What counts as a sound state of the machine and as a block at rest. -/

namespace Sys2Proof.Machine

/-- The block is idle and keeps no trace of any command (10_state R32, 40_encode_command R91). -/
abbrev Idle (s : State) : Prop :=
  s.regs = Regs.idle ∧ s.cmd = none ∧ s.out = none ∧ s.pending = none

/-- Only host requests wait: no sub-unit operation, which no host can issue (30_encoding R81). -/
def OnlyRequests (s : State) : Prop := ∀ w ∈ s.inbox, ∃ r, w = .request r

/-- What R23 says of the transient registers: `CNT` has bit 63 clear, and `SEL` and `H` are those of one of the three header
shapes (or of none yet). -/
abbrev RegsSound (g : Regs) : Prop :=
  g.cnt.toNat < 2 ^ 63 ∧
  ((g.sel = 0 ∧ g.h = 0) ∨ (g.sel = 0 ∧ g.h = 2) ∨ (g.sel = 1 ∧ g.h = 4) ∨ (g.sel = 2 ∧ g.h = 10))

/-- A response is a whole frame or a whole error (10_state R27, 60_exceptions R138, R141): status 0 with the frame of the
length law (40_encode_command R89), or a non-zero status with no frame. -/
abbrev ResponseSound (d : Delivered) : Prop :=
  (d.resp.status = statusOk ∧ d.resp.frame.length = framelen d.req.count.toNat ∧
    d.resp.len.toNat = d.resp.frame.length) ∨
  (d.resp.status ≠ statusOk ∧ d.resp.frame = [] ∧ d.resp.len = 0)

/-- The invariant of the machine: memory in canonical form, the registers as R23 says, at most N_REQ requests waiting and
N_REQ at least 1 (R9), no response left pending, every delivered response whole. -/
abbrev Inv (s : State) : Prop :=
  memoryWf s = true ∧ RegsSound s.regs ∧ 1 ≤ s.cfg.nReq ∧ s.inbox.length ≤ s.cfg.nReq ∧
  s.pending = none ∧ ∀ d ∈ s.delivered, ResponseSound d

/-- The host keeps its duty of 70_reset_and_hazards R167: `req_buflen` is the true length of the buffer, at most
2^63 - 1 (10_state R26). -/
abbrev TrueLength (s : State) (r : Request) : Prop :=
  r.buflen.toNat = (bufferOf s r).len ∧ r.buflen.toNat < 2 ^ 63

/-- None of the three error conditions of FE.CHECK holds (40_encode_command R86). -/
abbrev Passes (s : State) (r : Request) : Prop :=
  r.opcode.toNat ≤ 15 ∧ r.count.toNat ≤ s.cfg.maxCount.val ∧ r.offset.toNat + r.count.toNat ≤ r.buflen.toNat

/-- The state after a command that ended with a response (R91, R141): the block is idle, with the transient registers at the
values of log 3, the response is pending, and nothing else is changed. -/
abbrev endedWith (r : Request) (resp : Response) (s : State) : State :=
  { s with regs := Regs.idle, cmd := none, out := none, pending := some { req := r, resp := resp } }

/-- The command ended with a response (R91, R141): no command is in progress, OUT is given up, the response is pending, the
transient registers hold no meaning any more (R23), and nothing else is changed. -/
def EndsWith (r : Request) (resp : Response) (s : State) (o : Result) : Prop :=
  ∃ g, o = .next { s with regs := g, cmd := none, out := none, pending := some { req := r, resp := resp } }

/-- From `s` to `t`, exactly the bytes `vs` were stored in OUT, from index `p` on: those indices read as `vs`, every other
index as before, and besides OUT only the output position `P`, which every write to OUT writes (R23), is changed. -/
def StoresAt (p : Nat) (vs : List Byte) (s t : State) : Prop :=
  ∃ f g q, s.out = some f ∧ g.len = f.len ∧
    (∀ i (h : i < vs.length), g.read (p + i) = vs[i]) ∧
    (∀ a, (a < p ∨ p + vs.length ≤ a) → g.read a = f.read a) ∧
    t = { s with out := some g, regs := { s.regs with pos := q } }

/-- OUT is in being, in canonical form, and `n` bytes from index `p` on lie inside it. -/
def FrameRoom (s : State) (p n : Nat) : Prop := ∃ f, s.out = some f ∧ f.wf = true ∧ p + n ≤ f.len

/-- The payload bytes of a command in progress: `n` bytes of its buffer from `OFF` on. -/
def payloadAt (s : State) (n : Nat) : List Byte :=
  match s.cmd with
  | none => []
  | some r => (bufferOf s r).slice s.regs.off.toNat n

/-- The `n` payload bytes from `OFF` on lie inside the buffer of the command in progress (20_memory R49); with no payload
no buffer is needed (40_encode_command R99). -/
def PayloadInside (s : State) (n : Nat) : Prop :=
  n = 0 ∨ ∃ r, s.cmd = some r ∧ s.regs.off.toNat + n ≤ r.buflen.toNat ∧ s.regs.off.toNat + n ≤ (bufferOf s r).len

/-- What the hosts may do between two steps, as far as waiting goes: any number of requests arrive, and no response and no service
choice is touched. Buffers and the rest are left open. -/
def HostsAct (s s' : State) : Prop :=
  ∃ rs : List Request, s'.inbox = s.inbox ++ rs.map OpWord.request ∧ s'.arbiter = s.arbiter ∧ s'.delivered = s.delivered

/-- A run without end in which hosts act before every step, and every step has a next state. -/
def RunsWithHosts (run : Nat → State) : Prop := ∀ n, ∃ s, HostsAct (run n) s ∧ step s = .next (run (n + 1))

end Sys2Proof.Machine
end

