-- ==== Sys2Proof/Certificates/Slice0/Obligations.lean ====
section
/-! DEFINITION. The statements about the model, for the provers. -/

open Sys2Proof Sys2Proof.Machine

/-! ### Encodings -/

/-- Words of the opcode table, written out from 30_encoding R61 to R65, R77, R78 and R81, are read as the operations they
stand for (which row a shared width is read as is the model's choice, log 10). -/
def Obligations.TableWordsAreRead : Prop :=
  decodeTableWord 0 0 = some (.encode Request.zero) ∧
  decodeTableWord 16 0b1000000110000101 = some (.frameL7 true 1 5) ∧
  decodeTableWord 16 0b0000001011111110 = some (.frameL16 false 2 0) ∧
  decodeTableWord 16 0b1000001011111111 = some (.frameL64 true 2 0) ∧
  decodeTableWord 8 0b00001111 = some (.hpByte0 false 15) ∧
  decodeTableWord 8 0b11111101 = some (.hpByte1 125) ∧
  decodeTableWord 16 0b0000000100101100 = some (.hpExt16 300) ∧
  decodeTableWord 32 0x37FA213D = some (.mkKeywr ⟨0x37, 0xFA, 0x21, 0x3D⟩) ∧
  decodeTableWord 64 0x989680 = some (.hpExt64 10000000) ∧
  decode (.checkRequest Request.zero) = .ok (.feCheck Request.zero) ∧
  decode (.bits .hpLensel [0, 0, 0, 0, 0, 0, 0x01, 0x2C]) = .ok (.hpLensel 300) ∧
  decode (.bits .mkKeygen []) = .ok .mkKeygen ∧
  decode (.bits .mkXor [0, 0, 0, 0, 0, 0, 0, 4]) = .ok (.mkXor 4)

/-- Decoding the word of a well-formed operation gives the operation back: no bit of a word is dropped (the form of the
words is the model's, log 8). -/
def Obligations.DecodeOfEncode : Prop :=
  ∀ i : Instr, WellFormed i → decode (encode i) = .ok i

/-- A word that decodes is the word of what it decodes to, and that is well formed: one word for each operation (the form
of the words is the model's, log 8). -/
def Obligations.EncodeOfDecode : Prop :=
  ∀ (w : OpWord) (i : Instr), decode w = .ok i → WellFormed i ∧ encode i = w

/-- R78: the patterns of the three frame rows over `W = F[0] * 256 + F[1]` are disjoint, and the recogniser takes a header
for exactly the row whose pattern and further condition it meets. -/
def Obligations.FrameRowsAreDisjoint : Prop :=
  (∀ W : BitVec 16,
    ¬ (patternL16.accepts W = true ∧ patternL64.accepts W = true) ∧
    ¬ (patternL7.accepts W = true ∧ (W &&& 0x7F#16).toNat ≤ 125 ∧
        (patternL16.accepts W = true ∨ patternL64.accepts W = true))) ∧
  (∀ (b0 b1 : Byte) (rest tail : List Byte) (i : Instr), recognise (b0 :: b1 :: rest) = .ok (i, tail) →
    (i.frameRow = some .frameL7 ↔ patternL7.accepts (b0 ++ b1) = true ∧ ((b0 ++ b1) &&& 0x7F#16).toNat ≤ 125) ∧
    (i.frameRow = some .frameL16 ↔ patternL16.accepts (b0 ++ b1) = true) ∧
    (i.frameRow = some .frameL64 ↔ patternL64.accepts (b0 ++ b1) = true) ∧
    (i.frameRow = some .frameL64 → ∃ f2 rest', rest = f2 :: rest' ∧ f2.getLsbD 7 = false))

/-- R70, R112: from the header of a frame of the block its format, FIN, opcode and count are read back without loss, and
what follows the header is left. -/
def Obligations.HeaderIsReadBack : Prop :=
  ∀ (fin : Bool) (opc : BitVec 4) (c : BitVec 64) (rest : List Byte), c.toNat < 2 ^ 63 →
    recognise (header fin opc c ++ rest) =
      .ok ((if c.toNat < 126 then Instr.frameL7 fin opc (c.extractLsb 6 0)
        else if c.toNat < 65536 then Instr.frameL16 fin opc (c.extractLsb 15 0)
        else Instr.frameL64 fin opc (c.extractLsb 62 0)), rest)

/-! ### Reset and the step -/

/-- After reset no command is in progress, no response is pending, nothing waits and nothing was answered (R34, R160). The
idle values of the transient registers are the model's choice (log 3). -/
def Obligations.ResetIsIdle : Prop :=
  Idle State.reset ∧ State.reset.inbox = [] ∧ State.reset.delivered = [] ∧ State.reset.cfg.maxCount.val = 2 ^ 63 - 1

/-- With nothing waiting the block is idle: a step changes nothing (the model's choice, log 13). -/
def Obligations.IdleStepChangesNothing : Prop :=
  ∀ s : State, s.inbox = [] → step s = .next s

/-- A step runs the decoded operation: where the waiting word is taken from the inbox and decodes, the step is `exec` of
the operation followed by the delivery of the response it left pending; a word that is no operation is refused by name
(words in an inbox and delivery in the same step are the model's form, logs 8 and 9). -/
def Obligations.StepRunsTheDecodedOperation : Prop :=
  (∀ (s u : State) (w : OpWord) (i : Instr), takeWord s = some (w, u) → decode w = .ok i →
    step s = andThen (exec i u) (fun t => .next (deliver t))) ∧
  (∀ (s u : State) (w : OpWord) (e : DecodeError), takeWord s = some (w, u) → decode w = .error e →
    step s = .refused (.undecodable e)) ∧
  (∀ (s : State) (w : OpWord), s.inbox = [w] → takeWord s = some (w, { s with inbox := [], arbiter := s.arbiter.cleared }))

/-- R148: a step serves one of the waiting requests, whichever the service choice says; any waiting request may be next;
the others go on waiting (the form of the free choice is the model's, log 7). -/
def Obligations.AnyWaitingRequestMayBeServed : Prop :=
  (∀ s : State, s.inbox ≠ [] →
    ∃ k, ∃ h : k < s.inbox.length, ∃ a, takeWord s = some (s.inbox[k], { s with inbox := s.inbox.eraseIdx k, arbiter := a })) ∧
  (∀ (s : State) (k : Nat) (h : k < s.inbox.length),
    ∃ a b, takeWord { s with arbiter := a } = some (s.inbox[k], { s with inbox := s.inbox.eraseIdx k, arbiter := b }))

/-- R148, R9, R33: a request is accepted exactly while fewer than N_REQ wait, whichever host makes it; then it waits last, and
nothing else changes. -/
def Obligations.PresentedRequestWaits : Prop :=
  ∀ (r : Request) (s : State),
    (s.inbox.length < s.cfg.nReq → present r s = some { s with inbox := s.inbox ++ [.request r] }) ∧
    (s.cfg.nReq ≤ s.inbox.length → present r s = none)

/-! ### ENCODE and FE.CHECK -/

/-- R85, R91, R110, R125: a request with its true length that meets none of the error conditions is answered with status 0
and the frame: the header of FIN, opcode and count, the drawn key, the payload masked with it; one draw is consumed, no
trace of the command stays (that the idle registers read zero is the model's choice, log 3), and nothing else changes.
-/
def Obligations.EncodeRespondsWithTheFrame : Prop :=
  ∀ (s : State) (r : Request), TrueLength s r → Passes s r → s.entropy.answering = true →
    exec (.encode r) s = .next (endedWith r
      { status := 0
        len := BitVec.ofNat 64 (framelen r.count.toNat)
        frame := header r.final (r.opcode.extractLsb 3 0) r.count ++ keyBytes s.entropy.answer ++
          masked s.entropy.answer ((bufferOf s r).slice r.offset.toNat r.count.toNat) }
      { s with entropy := s.entropy.advance })

/-- R135 to R137, R140, R141: the first of opcode, size and range that fails names the error; the response has no length and
no frame, no draw is made, and nothing else changes (that the idle registers read zero is the model's choice, log 3). -/
def Obligations.EncodeReportsTheFirstError : Prop :=
  ∀ (s : State) (r : Request), TrueLength s r →
    (15 < r.opcode.toNat →
      exec (.encode r) s = .next (endedWith r { status := 2, len := 0, frame := [] } s)) ∧
    (r.opcode.toNat ≤ 15 → s.cfg.maxCount.val < r.count.toNat →
      exec (.encode r) s = .next (endedWith r { status := 3, len := 0, frame := [] } s)) ∧
    (r.opcode.toNat ≤ 15 → r.count.toNat ≤ s.cfg.maxCount.val →
      r.buflen.toNat < r.offset.toNat + r.count.toNat →
      exec (.encode r) s = .next (endedWith r { status := 1, len := 0, frame := [] } s))

/-- R167: a request whose `req_buflen` is not the true length of its buffer, or is above 2^63 - 1, is refused by name, by
ENCODE and by FE.CHECK (that the refusal comes before the three tests is the model's reading, log 19). -/
def Obligations.FalseLengthIsRefused : Prop :=
  ∀ (s : State) (r : Request), ¬ TrueLength s r →
    exec (.encode r) s = .refused .bufferLengthMisstated ∧ exec (.feCheck r) s = .refused .bufferLengthMisstated

/-- R164: ENCODE has no step while the draw has no answer; a request that fails a test needs no draw and is answered (the
flag is the model's form, log 5). -/
def Obligations.EncodeHasNoStepWithoutAnswer : Prop :=
  ∀ (s : State) (r : Request), TrueLength s r → s.entropy.answering = false →
    (Passes s r → exec (.encode r) s = .fault .drawUnanswered) ∧
    (¬ Passes s r → ∃ t, exec (.encode r) s = .next t)

/-- R86: FE.CHECK latches the operands of a request that meets none of the three conditions, and raises the first error of
one that does (what the transient registers then hold is left open); the sum does not wrap (that the request is then the
command in progress is the model's choice, log 23). -/
def Obligations.CheckLatchesOrRaises : Prop :=
  ∀ (s : State) (r : Request), TrueLength s r →
    (15 < r.opcode.toNat → EndsWith r { status := 2, len := 0, frame := [] } s (exec (.feCheck r) s)) ∧
    (r.opcode.toNat ≤ 15 → s.cfg.maxCount.val < r.count.toNat →
      EndsWith r { status := 3, len := 0, frame := [] } s (exec (.feCheck r) s)) ∧
    (r.opcode.toNat ≤ 15 → r.count.toNat ≤ s.cfg.maxCount.val → r.buflen.toNat < r.offset.toNat + r.count.toNat →
      EndsWith r { status := 1, len := 0, frame := [] } s (exec (.feCheck r) s)) ∧
    (r.opcode.toNat ≤ 15 → r.count.toNat ≤ s.cfg.maxCount.val → r.offset.toNat + r.count.toNat ≤ r.buflen.toNat →
      exec (.feCheck r) s = .next { s with
        cmd := some r
        regs := { s.regs with opc := r.opcode.extractLsb 3 0, finr := r.final, cnt := r.count, off := r.offset } })

/-- R142: after an error the same request gives the same error again, and leaves the same state. -/
def Obligations.RetryRepeatsTheError : Prop :=
  ∀ (s t : State) (r : Request) (d : Delivered), exec (.encode r) s = .next t → t.pending = some d →
    d.resp.status ≠ 0 → exec (.encode r) t = .next t

/-- R94: a waiting request with its true length is answered by the next step with exactly one response, whole and paired
with it; the block is idle again, and buffers and parameters are as before (the list of delivered responses is the model's
form, log 9; that the idle registers read zero is its choice, log 3). -/
def Obligations.OneResponseForEachRequest : Prop :=
  ∀ (s : State) (r : Request), s.inbox = [.request r] → s.pending = none → TrueLength s r →
    s.entropy.answering = true →
    ∃ t d, step s = .next t ∧ t.delivered = s.delivered ++ [d] ∧ d.req = r ∧ ResponseSound d ∧ Idle t ∧
      t.inbox = [] ∧ t.src = s.src ∧ t.cfg = s.cfg

/-- R94, R148: from an idle block, as many steps as requests wait serve them all, in some order: every one has its
response, the block is idle, and the run is over (the list of delivered responses is the model's form, log 9; that the
idle registers read zero is its choice, log 3). -/
def Obligations.EveryWaitingRequestIsAnswered : Prop :=
  ∀ s : State, Idle s → s.entropy.answering = true → (∀ w ∈ s.inbox, ∃ r, w = .request r ∧ TrueLength s r) →
    ∃ (t : State) (ds : List Delivered), Host.Core.run Sys2Proof.core s.inbox.length s = .next t ∧ Idle t ∧ t.inbox = [] ∧
      t.delivered = s.delivered ++ ds ∧ (ds.map (fun d => OpWord.request d.req)).Perm s.inbox

/-! ### Laws of a successful ENCODE -/

/-- R89: the length law: for every successful ENCODE the length field and the number of frame bytes are `framelen(count)`,
which is `hdrlen(count) + 4 + count`. -/
def Obligations.FrameLengthLaw : Prop :=
  ∀ (s t : State) (r : Request) (d : Delivered), exec (.encode r) s = .next t → t.pending = some d →
    d.resp.status = 0 →
    d.resp.len.toNat = framelen r.count.toNat ∧ d.resp.frame.length = framelen r.count.toNat ∧
    framelen r.count.toNat = hdrlen r.count.toNat + 4 + r.count.toNat

/-- R96, R97: in the frame of every successful ENCODE bit 7 of `F[0]` is set exactly when the request is final, its low
four bits are the opcode, bits 6 to 4 are 0, and bit 7 of `F[1]` is set. -/
def Obligations.FinOpcodeAndMaskLaw : Prop :=
  ∀ (s t : State) (r : Request) (d : Delivered), exec (.encode r) s = .next t → t.pending = some d →
    d.resp.status = 0 →
    ∃ f0 f1 rest, d.resp.frame = f0 :: f1 :: rest ∧
      (f0 &&& 0x80#8 ≠ 0 ↔ r.final = true) ∧ (f0 &&& 0x0F#8).toNat = r.opcode.toNat ∧ f0 &&& 0x70#8 = 0 ∧
      f1 &&& 0x80#8 = 0x80#8

/-- R92: the round trip: for every successful ENCODE, unmasking each byte of the payload field with its byte of the key
field gives the payload byte. -/
def Obligations.RoundTripLaw : Prop :=
  ∀ (s t : State) (r : Request) (d : Delivered), exec (.encode r) s = .next t → t.pending = some d →
    d.resp.status = 0 → ∀ i < r.count.toNat,
    d.resp.frame.getD (hdrlen r.count.toNat + 4 + i) 0 ^^^ d.resp.frame.getD (hdrlen r.count.toNat + i % 4) 0 =
      (bufferOf s r).read (r.offset.toNat + i)

/-- R90: two requests with the same FIN, opcode and count get frames of the same length with the same header bytes, whatever
their payloads, keys and machines. -/
def Obligations.LayoutLaw : Prop :=
  ∀ (s t s' t' : State) (r r' : Request) (d d' : Delivered),
    exec (.encode r) s = .next t → t.pending = some d → d.resp.status = 0 →
    exec (.encode r') s' = .next t' → t'.pending = some d' → d'.resp.status = 0 →
    r.final = r'.final → r.opcode = r'.opcode → r.count = r'.count →
    d.resp.len = d'.resp.len ∧
    d.resp.frame.take (hdrlen r.count.toNat) = d'.resp.frame.take (hdrlen r'.count.toNat)

/-- R99: an empty payload: the frame is byte 0, `0x80` and the key, for any buffer, and one draw is made. -/
def Obligations.EmptyPayloadFrame : Prop :=
  ∀ (s : State) (r : Request), TrueLength s r → Passes s r → s.entropy.answering = true → r.count = 0 →
    ∃ t f0, exec (.encode r) s = .next t ∧ f0 = (if r.final then 0x80#8 else 0x00#8) ||| r.opcode ∧
      t.entropy = s.entropy.advance ∧
      t.pending = some { req := r, resp :=
        { status := 0, len := 6, frame := [f0, 0x80, s.entropy.answer.k0, s.entropy.answer.k1, s.entropy.answer.k2,
            s.entropy.answer.k3] } }

/-- R98: the response depends on the request, on the bytes of its payload range and on its own draw, and on nothing else of
the machine (the instance's MAX_COUNT apart). -/
def Obligations.ResponseDependsOnPayloadAndDraw : Prop :=
  ∀ (s s' t : State) (r : Request), s.cfg.maxCount = s'.cfg.maxCount → TrueLength s r → TrueLength s' r →
    (bufferOf s r).slice r.offset.toNat r.count.toNat = (bufferOf s' r).slice r.offset.toNat r.count.toNat →
    s.entropy.answer = s'.entropy.answer → s.entropy.answering = s'.entropy.answering →
    exec (.encode r) s = .next t → ∃ t', exec (.encode r) s' = .next t' ∧ t'.pending = t.pending

/-- R76: byte patterns no frame of a successful ENCODE has: bits 6 to 4 of `F[0]` set; bit 7 of `F[1]` clear; `F[1] =
0xFE` with an extension below 126; `F[1] = 0xFF` with an extension below 65536 or with its top bit set; a length other
than `framelen` of the length the header states. -/
def Obligations.NeverProducedPatterns : Prop :=
  ∀ (s t : State) (r : Request) (d : Delivered), exec (.encode r) s = .next t → t.pending = some d →
    d.resp.status = 0 →
    d.resp.frame.getD 0 0 &&& 0x70#8 = 0 ∧
    (d.resp.frame.getD 1 0).getLsbD 7 = true ∧
    (d.resp.frame.getD 1 0 = 0xFE#8 →
      126 ≤ (d.resp.frame.getD 2 0).toNat * 256 + (d.resp.frame.getD 3 0).toNat) ∧
    (d.resp.frame.getD 1 0 = 0xFF#8 →
      (d.resp.frame.getD 2 0).getLsbD 7 = false ∧
      65536 ≤ (join64 (d.resp.frame.getD 2 0) (d.resp.frame.getD 3 0) (d.resp.frame.getD 4 0)
        (d.resp.frame.getD 5 0) (d.resp.frame.getD 6 0) (d.resp.frame.getD 7 0) (d.resp.frame.getD 8 0)
        (d.resp.frame.getD 9 0)).toNat) ∧
    (∃ i tail, recognise d.resp.frame = .ok (i, tail) ∧
      (∀ fin opc n, i = Instr.frameL7 fin opc n → d.resp.frame.length = framelen n.toNat) ∧
      (∀ fin opc n, i = Instr.frameL16 fin opc n → d.resp.frame.length = framelen n.toNat) ∧
      (∀ fin opc n, i = Instr.frameL64 fin opc n → d.resp.frame.length = framelen n.toNat))

/-! ### The header packer -/

/-- R14: `hdrlen` is 2, 4 or 10 by the two thresholds and non-decreasing; `framelen` is `hdrlen + 4 + count` and strictly
increasing. -/
def Obligations.HeaderAndFrameLengths : Prop :=
  (∀ c, c < 126 → hdrlen c = 2) ∧ (∀ c, 126 ≤ c → c < 65536 → hdrlen c = 4) ∧ (∀ c, 65536 ≤ c → hdrlen c = 10) ∧
  (∀ c, framelen c = hdrlen c + 4 + c) ∧
  (∀ c c', c ≤ c' → hdrlen c ≤ hdrlen c') ∧ (∀ c c', c < c' → framelen c < framelen c')

/-- R105: HP.LENSEL sets SEL, H and L7 from the whole of CNT, and nothing else. -/
def Obligations.LenselSetsTheShape : Prop :=
  ∀ (cnt : BitVec 64) (s : State),
    (cnt.toNat < 126 → exec (.hpLensel cnt) s =
      .next { s with regs := { s.regs with sel := 0, h := 2, l7 := cnt.extractLsb 6 0 } }) ∧
    (126 ≤ cnt.toNat → cnt.toNat < 65536 → exec (.hpLensel cnt) s =
      .next { s with regs := { s.regs with sel := 1, h := 4, l7 := 126 } }) ∧
    (65536 ≤ cnt.toNat → exec (.hpLensel cnt) s =
      .next { s with regs := { s.regs with sel := 2, h := 10, l7 := 127 } })

/-- R106: HP.BYTE0 stores FIN, three zero bits and the opcode at `F[0]`; besides OUT only `P` changes. -/
def Obligations.ByteZeroIsStored : Prop :=
  ∀ (fin : Bool) (opc : BitVec 4) (s : State), FrameRoom s 0 1 →
    ∃ t v, exec (.hpByte0 fin opc) s = .next t ∧ StoresAt 0 [v] s t ∧
      v = (if fin then 0x80#8 else 0x00#8) ||| opc.setWidth 8 ∧ v &&& 0x70#8 = 0

/-- R107: HP.BYTE1 stores the MASK bit and L7 at `F[1]`; besides OUT only `P` changes. -/
def Obligations.ByteOneIsStored : Prop :=
  ∀ (l7 : BitVec 7) (s : State), FrameRoom s 1 1 →
    ∃ t v, exec (.hpByte1 l7) s = .next t ∧ StoresAt 1 [v] s t ∧
      v = 0x80#8 ||| l7.setWidth 8 ∧ (v &&& 0x7F#8).toNat = l7.toNat ∧ v &&& 0x80#8 = 0x80#8

/-- R108: HP.EXT16 stores the two bytes of `CNT[15:0]`, the most significant first, at `F[2..3]` exactly when `SEL = 1`;
else it is not performed (that it then has no effect is the model's reading, log 12). -/
def Obligations.SixteenBitExtensionIsStored : Prop :=
  ∀ (n : BitVec 16) (s : State),
    (s.regs.sel = 1 → FrameRoom s 2 2 →
      ∃ t, exec (.hpExt16 n) s = .next t ∧ StoresAt 2 [n.extractLsb 15 8, n.extractLsb 7 0] s t) ∧
    (s.regs.sel ≠ 1 → exec (.hpExt16 n) s = .next s)

/-- R109: HP.EXT64 stores the eight bytes of CNT, the most significant first and its top bit 0, at `F[2..9]` exactly when
`SEL = 2`; else it is not performed (that it then has no effect is the model's reading, log 12). -/
def Obligations.SixtyFourBitExtensionIsStored : Prop :=
  ∀ (n : BitVec 63) (s : State),
    (s.regs.sel = 2 → FrameRoom s 2 8 →
      ∃ t vs, exec (.hpExt64 n) s = .next t ∧ StoresAt 2 vs s t ∧ vs.length = 8 ∧
        (∀ j < 8, (vs.getD j 0).toNat = n.toNat / 2 ^ (56 - 8 * j) % 256) ∧ (vs.getD 0 0).getLsbD 7 = false) ∧
    (s.regs.sel ≠ 2 → exec (.hpExt64 n) s = .next s)

/-! ### The mask unit -/

/-- R120: MK.KEYGEN puts the answer of one draw into `K[0..3]` and changes nothing else; the answer may be any key, and a
pinned one is used up (R79). Without an answer there is no step (R164) (the forms of the draw and of its flag are the
model's, logs 4 and 5). -/
def Obligations.KeygenDrawsOnce : Prop :=
  (∀ s : State, s.entropy.answering = true →
    exec .mkKeygen s = .next { s with
      regs := { s.regs with key := s.entropy.answer }
      entropy := s.entropy.advance }) ∧
  (∀ (s : State) (k : Key) (ks : List Key), s.entropy.pinned = k :: ks →
    s.entropy.answer = k ∧ s.entropy.advance.pinned = ks) ∧
  (∀ s : State, s.entropy.answering = false → exec .mkKeygen s = .fault .drawUnanswered)

/-- R121: MK.KEYWR stores the four key bytes in index order at `F[H..H+3]`; besides OUT only `P` changes. -/
def Obligations.KeyIsStored : Prop :=
  ∀ (k : Key) (s : State), FrameRoom s s.regs.h.toNat 4 →
    ∃ t, exec (.mkKeywr k) s = .next t ∧ StoresAt s.regs.h.toNat [k.k0, k.k1, k.k2, k.k3] s t

/-- R122: MK.XOR stores the payload byte at `OFF + I`, XORed with `K[I mod 4]`, at `F[H + 4 + I]`; besides OUT and P only
`I` changes (that it holds the index just done is the model's reading, log 16). -/
def Obligations.MaskedByteIsStored : Prop :=
  ∀ (idx : BitVec 64) (s : State) (r : Request), s.cmd = some r →
    s.regs.off.toNat + idx.toNat < r.buflen.toNat → s.regs.off.toNat + idx.toNat < (bufferOf s r).len →
    FrameRoom s (s.regs.h.toNat + 4 + idx.toNat) 1 →
    ∃ t, exec (.mkXor idx) s = .next t ∧
      StoresAt (s.regs.h.toNat + 4 + idx.toNat)
        [(bufferOf s r).read (s.regs.off.toNat + idx.toNat) ^^^
          [s.regs.key.k0, s.regs.key.k1, s.regs.key.k2, s.regs.key.k3].getD (idx.toNat % 4) 0]
        { s with regs := { s.regs with idx := idx } } t

/-- R22, R23: every write to OUT leaves its index in `P` (the model's reading, log 16). -/
def Obligations.PositionIsTheLastIndexWritten : Prop :=
  (∀ fin opc s t, exec (.hpByte0 fin opc) s = .next t → t.regs.pos = 0) ∧
  (∀ l7 s t, exec (.hpByte1 l7) s = .next t → t.regs.pos = 1) ∧
  (∀ n s t, exec (.hpExt16 n) s = .next t → t.regs.pos = if s.regs.sel = 1 then 3 else s.regs.pos) ∧
  (∀ n s t, exec (.hpExt64 n) s = .next t → t.regs.pos = if s.regs.sel = 2 then 9 else s.regs.pos) ∧
  (∀ k s t, exec (.mkKeywr k) s = .next t → t.regs.pos.toNat = s.regs.h.toNat + 3) ∧
  (∀ idx s t, idx.toNat < 2 ^ 63 → exec (.mkXor idx) s = .next t →
    t.regs.pos.toNat = s.regs.h.toNat + 4 + idx.toNat ∧ t.regs.idx = idx)

/-- R13, R45, R46, R49: an access outside the frame or the buffer stops by name, whichever operation makes it: no write
without a frame or beyond it, no read without a buffer or beyond it (that an access the spec calls not legal is a fault is
the model's reading, log 21). -/
def Obligations.AccessOutsideStops : Prop :=
  (∀ s : State, s.out = none →
    (∀ fin opc, exec (.hpByte0 fin opc) s = .fault .writeWithoutFrame) ∧
    (∀ l7, exec (.hpByte1 l7) s = .fault .writeWithoutFrame) ∧
    (s.regs.sel = 1 → ∀ n, exec (.hpExt16 n) s = .fault .writeWithoutFrame) ∧
    (s.regs.sel = 2 → ∀ n, exec (.hpExt64 n) s = .fault .writeWithoutFrame) ∧
    (∀ k, exec (.mkKeywr k) s = .fault .writeWithoutFrame) ∧
    (∀ (idx : BitVec 64) (r : Request), s.cmd = some r → s.regs.off.toNat + idx.toNat < r.buflen.toNat →
      s.regs.off.toNat + idx.toNat < (bufferOf s r).len → exec (.mkXor idx) s = .fault .writeWithoutFrame)) ∧
  (∀ (s : State) (f : Space), s.out = some f →
    (f.len ≤ 0 → ∀ fin opc, exec (.hpByte0 fin opc) s = .fault .writeOutsideFrame) ∧
    (f.len ≤ 1 → ∀ l7, exec (.hpByte1 l7) s = .fault .writeOutsideFrame) ∧
    (s.regs.sel = 1 → f.len ≤ 3 → ∀ n, exec (.hpExt16 n) s = .fault .writeOutsideFrame) ∧
    (s.regs.sel = 2 → f.len ≤ 9 → ∀ n, exec (.hpExt64 n) s = .fault .writeOutsideFrame) ∧
    (f.len ≤ s.regs.h.toNat + 3 → ∀ k, exec (.mkKeywr k) s = .fault .writeOutsideFrame) ∧
    (∀ (idx : BitVec 64) (r : Request), s.cmd = some r → s.regs.off.toNat + idx.toNat < r.buflen.toNat →
      s.regs.off.toNat + idx.toNat < (bufferOf s r).len → f.len ≤ s.regs.h.toNat + 4 + idx.toNat →
      exec (.mkXor idx) s = .fault .writeOutsideFrame)) ∧
  (∀ (s : State) (idx : BitVec 64), s.cmd = none → exec (.mkXor idx) s = .fault .readWithoutCommand) ∧
  (∀ (s : State) (idx : BitVec 64) (r : Request), s.cmd = some r →
    (r.buflen.toNat ≤ s.regs.off.toNat + idx.toNat ∨ (bufferOf s r).len ≤ s.regs.off.toNat + idx.toNat) →
    exec (.mkXor idx) s = .fault .readOutsideBuffer)

/-- R125: `masked(k, p)` is as long as `p`; its byte `i` is `p[i] XOR k[i mod 4]`; masking twice gives `p` back; the zero
key masks nothing; a payload in two pieces is masked with the key rotated for the second. -/
def Obligations.MaskedPayloadLaws : Prop :=
  (∀ k p, (masked k p).length = p.length) ∧
  (∀ (k : Key) (p : List Byte) (i : Nat), i < p.length →
    (masked k p).getD i 0 = p.getD i 0 ^^^ [k.k0, k.k1, k.k2, k.k3].getD (i % 4) 0) ∧
  (∀ k p, masked k (masked k p) = p) ∧
  (∀ p, masked ⟨0, 0, 0, 0⟩ p = p) ∧
  (∀ k p q, masked k (p ++ q) = masked k p ++ masked (rot k (p.length % 4)) q)

/-- R126: the zero key gives the payload, the key of FF bytes its complement, a zero payload the key repeated, and a
payload of FF bytes the complemented key repeated. -/
def Obligations.CornerKeysAndPayloads : Prop :=
  (∀ p, masked ⟨0, 0, 0, 0⟩ p = p) ∧
  (∀ p, masked ⟨0xFF, 0xFF, 0xFF, 0xFF⟩ p = p.map (fun b => ~~~b)) ∧
  (∀ k n, masked k (List.replicate n 0) =
    (List.range n).map (fun i => [k.k0, k.k1, k.k2, k.k3].getD (i % 4) 0)) ∧
  (∀ k n, masked k (List.replicate n 0xFF) =
    (List.range n).map (fun i => ~~~([k.k0, k.k1, k.k2, k.k3].getD (i % 4) 0)))

/-! ### The frame formats -/

/-- R63 to R65: the format ENCODE chooses for a count, bit for bit, with the frame's length; the key and `count` payload
bytes follow the header. -/
def Obligations.EncodeChoosesTheFormat : Prop :=
  ∀ (s t : State) (r : Request) (d : Delivered), exec (.encode r) s = .next t → t.pending = some d →
    d.resp.status = 0 →
    ∃ (f0 f1 : Byte) (ext payload : List Byte) (k : Key),
      d.resp.frame = f0 :: f1 :: ext ++ [k.k0, k.k1, k.k2, k.k3] ++ payload ∧ payload.length = r.count.toNat ∧
      f0.getLsbD 7 = r.final ∧ f0.extractLsb 6 4 = 0 ∧ (f0.extractLsb 3 0).toNat = r.opcode.toNat ∧
      (r.count.toNat < 126 →
        ext = [] ∧ f1.getLsbD 7 = true ∧ (f1.extractLsb 6 0).toNat = r.count.toNat ∧
        d.resp.frame.length = 6 + r.count.toNat ∧ 6 ≤ d.resp.frame.length ∧ d.resp.frame.length ≤ 131) ∧
      (126 ≤ r.count.toNat → r.count.toNat < 65536 →
        ext = [r.count.extractLsb 15 8, r.count.extractLsb 7 0] ∧ f1 = 0b11111110#8 ∧
        d.resp.frame.length = 8 + r.count.toNat ∧ 134 ≤ d.resp.frame.length ∧ d.resp.frame.length ≤ 65543) ∧
      (65536 ≤ r.count.toNat →
        ext.length = 8 ∧ (∀ j < 8, (ext.getD j 0).toNat = r.count.toNat / 2 ^ (56 - 8 * j) % 256) ∧
        (ext.getD 0 0).getLsbD 7 = false ∧ f1 = 0b11111111#8 ∧
        d.resp.frame.length = 14 + r.count.toNat ∧ 65550 ≤ d.resp.frame.length)

/-- FRAME.L7 as an operation (what it does as one is the model's reading, log 11), with R63: format L7, chosen when
`count < 126`: the frame is `f000oooo 1lllllll`, the key and the masked payload, 6 + count
bytes long, from 6 to 131; a field of 126 or 127 is not this format. -/
def Obligations.FormatL7 : Prop :=
  ∀ (fin : Bool) (opc : BitVec 4) (len : BitVec 7) (s : State),
    (len.toNat ≤ 125 → s.entropy.answering = true → PayloadInside s len.toNat →
      ∃ t f, exec (.frameL7 fin opc len) s = .next t ∧ t.out = some f ∧
        f.bytes = [byte0 fin opc, byte1 len] ++ keyBytes s.entropy.answer ++
          masked s.entropy.answer (payloadAt s len.toNat) ∧
        f.len = 6 + len.toNat ∧ 6 ≤ f.len ∧ f.len ≤ 131 ∧
        t = { s with
          out := some f, entropy := s.entropy.advance
          regs := { s.regs with
            finr := fin, opc := opc, cnt := len.setWidth 64, sel := 0, h := 2, l7 := len, key := s.entropy.answer
            idx := t.regs.idx, pos := t.regs.pos } }) ∧
    (125 < len.toNat → exec (.frameL7 fin opc len) s = .next s)

/-- FRAME.L16 as an operation (the model's reading, log 11), with R64: format L16, chosen when `126 <= count < 65536`: the
frame is `f000oooo 11111110`, the count in two bytes, the key and the masked payload, 8 + count bytes long, from 134 to
65543; a smaller count is not sent in this format. -/
def Obligations.FormatL16 : Prop :=
  ∀ (fin : Bool) (opc : BitVec 4) (n : BitVec 16) (s : State),
    (126 ≤ n.toNat → s.entropy.answering = true → PayloadInside s n.toNat →
      ∃ t f, exec (.frameL16 fin opc n) s = .next t ∧ t.out = some f ∧
        f.bytes = [byte0 fin opc, 0b11111110#8, n.extractLsb 15 8, n.extractLsb 7 0] ++ keyBytes s.entropy.answer ++
          masked s.entropy.answer (payloadAt s n.toNat) ∧
        f.len = 8 + n.toNat ∧ 134 ≤ f.len ∧ f.len ≤ 65543 ∧
        t = { s with
          out := some f, entropy := s.entropy.advance
          regs := { s.regs with
            finr := fin, opc := opc, cnt := n.setWidth 64, sel := 1, h := 4, l7 := 126, key := s.entropy.answer
            idx := t.regs.idx, pos := t.regs.pos } }) ∧
    (n.toNat < 126 → exec (.frameL16 fin opc n) s = .next s)

/-- FRAME.L64 as an operation (the model's reading, log 11), with R65: format L64, chosen when `count >= 65536`: the frame
is `f000oooo 11111111`, the count in eight bytes whose first bit is 0, the key and the masked payload, 14 + count bytes
long, from 65550 upward; a smaller count is not sent in this format. -/
def Obligations.FormatL64 : Prop :=
  ∀ (fin : Bool) (opc : BitVec 4) (n : BitVec 63) (s : State),
    (65536 ≤ n.toNat → s.entropy.answering = true → PayloadInside s n.toNat →
      ∃ t f e, exec (.frameL64 fin opc n) s = .next t ∧ t.out = some f ∧
        f.bytes = [byte0 fin opc, 0b11111111#8] ++ e ++ keyBytes s.entropy.answer ++
          masked s.entropy.answer (payloadAt s n.toNat) ∧
        e.length = 8 ∧ (∀ j < 8, (e.getD j 0).toNat = n.toNat / 2 ^ (56 - 8 * j) % 256) ∧
        (e.getD 0 0).getLsbD 7 = false ∧
        f.len = 14 + n.toNat ∧ 65550 ≤ f.len ∧
        t = { s with
          out := some f, entropy := s.entropy.advance
          regs := { s.regs with
            finr := fin, opc := opc, cnt := n.setWidth 64, sel := 2, h := 10, l7 := 127, key := s.entropy.answer
            idx := t.regs.idx, pos := t.regs.pos } }) ∧
    (n.toNat < 65536 → exec (.frameL64 fin opc n) s = .next s)

/-! ### The whole machine -/

/-- The invariant (canonical memory, sound registers, at most N_REQ waiting, no response left pending, every response
whole) holds after reset (the values of the registers and of N_REQ there are the model's choice, logs 2 and 3). -/
def Obligations.InvariantAtReset : Prop := Inv State.reset

/-- Every step keeps the invariant: canonical memory, sound registers (R23), at most N_REQ waiting (R9), no response left
pending, every response a whole frame or a whole error (R27, R138). -/
def Obligations.StepKeepsTheInvariant : Prop :=
  ∀ s t : State, Inv s → step s = .next t → Inv t

/-- R32, R91: from an idle block at which only host requests wait, every step leaves an idle block with no trace of a
command (that the idle registers read zero is the model's choice, log 3). -/
def Obligations.StepLeavesNoTrace : Prop :=
  ∀ s t : State, Idle s → OnlyRequests s → step s = .next t → Idle t ∧ OnlyRequests t

/-- R29, R33, R45: no operation writes a source buffer, a parameter, the waiting requests, the service choice or the
delivered responses. -/
def Obligations.OperationsLeaveTheHostAlone : Prop :=
  ∀ (i : Instr) (s t : State), exec i s = .next t →
    t.src = s.src ∧ t.cfg = s.cfg ∧ t.inbox = s.inbox ∧ t.arbiter = s.arbiter ∧ t.delivered = s.delivered

/-- R52, R91: a response once delivered is never touched again: a step adds at most one, at the end; and it writes no source
buffer and no parameter. -/
def Obligations.DeliveredResponsesStay : Prop :=
  ∀ s t : State, step s = .next t →
    (t.delivered = s.delivered ∨ ∃ d, t.delivered = s.delivered ++ [d]) ∧ t.src = s.src ∧ t.cfg = s.cfg

/-- R161: the reset event on an idle block does not change the header, length or status of the response that follows: a
request answered without it is answered with it, and alike in all but the key and the bytes masked with it (what the event
keeps is the model's choice, log 17). -/
def Obligations.ResetEventIsInvisible : Prop :=
  ∀ (s t : State) (r : Request) (d : Delivered), Idle s → exec (.encode r) s = .next t → t.pending = some d →
    ∃ t' d', exec (.encode r) (resetEvent s) = .next t' ∧ t'.pending = some d' ∧
      d'.resp.status = d.resp.status ∧ d'.resp.len = d.resp.len ∧
      d'.resp.frame.take (hdrlen r.count.toNat) = d.resp.frame.take (hdrlen r.count.toNat)

/-- R160, R34: the reset event leaves no command in progress and no response pending, and the hosts' side as it was (what
it keeps is the model's choice, log 17; that the idle registers read zero, log 3). -/
def Obligations.ResetEventLeavesIdleBlock : Prop :=
  ∀ s : State, Idle (resetEvent s) ∧ (resetEvent s).delivered = s.delivered ∧ (resetEvent s).src = s.src ∧
    (resetEvent s).cfg = s.cfg ∧ (resetEvent s).inbox = s.inbox ∧ (resetEvent s).entropy.pinned = []

/-- R169: the adapter never turns an illegal value into a legal one: what fits is carried exactly, and what does not fit
comes out as an opcode above 15, or as a count or offset of at least 2^63 (which rejected value is presented is the
model's choice, log 18). -/
def Obligations.AdapterNeverTruncates : Prop :=
  (∀ z : Int, 0 ≤ z → z < 256 → ((adaptOpcode z).toNat : Int) = z) ∧
  (∀ z : Int, (z < 0 ∨ 15 < z) → 15 < (adaptOpcode z).toNat) ∧
  (∀ z : Int, 0 ≤ z → z < 2 ^ 64 → ((adaptWide z).toNat : Int) = z) ∧
  (∀ z : Int, (z < 0 ∨ 2 ^ 63 ≤ z) → 2 ^ 63 ≤ (adaptWide z).toNat)

/-- R80: ENCODE with the fifth operand left out is ENCODE with the fifth operand 1. -/
def Obligations.OmittedOperandMeansFinal : Prop :=
  ∀ (host buf : Nat) (op off cnt : Int) (s : State),
    requestOf host buf op off cnt none s = requestOf host buf op off cnt (some true) s ∧
    (requestOf host buf op off cnt none s).final = true

/-! ### The hosts between the steps -/

/-- R148: weak fairness: in every run without end, however many requests the hosts go on making, each request that waits is
served: a response to it is delivered. That every step has a next state is a premise (the entropy source answers, lengths are
true); that each oldest request has a free but finite allowance is the model's form of fairness, log 7. -/
def Obligations.EveryWaitingRequestIsServedEventually : Prop :=
  ∀ run : Nat → State, RunsWithHosts run → ∀ (m : Nat) (r : Request), OpWord.request r ∈ (run m).inbox →
    ∃ n d, m < n ∧ d ∈ (run n).delivered.drop (run m).delivered.length ∧ d.req = r

/-- R50, R51, R166: a host's store into the payload range of a request that has no response yet is refused; any other byte of a
buffer is written, and nothing else changes; so what an ENCODE reads is what its payload held when it was requested (that such a
store is refused, as U3 allows, is the model's choice, log 20). -/
def Obligations.PayloadInUseIsNotWritten : Prop :=
  (∀ (buf a : Nat) (v : Byte) (s : State) (sp : Space), s.src[buf]? = some sp → a < sp.len →
    ((∃ r ∈ openRequests s, r.buf = buf ∧ r.offset.toNat ≤ a ∧ a < r.offset.toNat + r.count.toNat) →
      hostStore buf a v s = .refused .payloadInUse) ∧
    ((∀ r ∈ openRequests s, ¬ (r.buf = buf ∧ r.offset.toNat ≤ a ∧ a < r.offset.toNat + r.count.toNat)) →
      hostStore buf a v s = .next { s with src := s.src.set buf (sp.write a v) })) ∧
  (∀ (buf a : Nat) (v : Byte) (s t : State), hostStore buf a v s = .next t →
    ∀ r ∈ openRequests s, payloadOf t r = payloadOf s r ∧ (bufferOf t r).len = (bufferOf s r).len) ∧
  (∀ (bytes : List Byte) (s t : State), hostBuffer bytes s = .next t →
    ∀ r ∈ openRequests s, bufferOf t r = bufferOf s r)

/-- R79: an ENCODE line of a host's program completes, whichever requests of other hosts wait: it ends in a state where its
request waits no more and a response to it was delivered, and the block is idle (that the idle registers read zero is the
model's choice, log 3; the list of delivered responses is its form, log 9). -/
def Obligations.EachLineCompletesItsCommand : Prop :=
  ∀ (host buf : Nat) (op off cnt : Int) (fin : Option Bool) (s : State), Idle s → s.entropy.answering = true →
    1 ≤ s.cfg.nReq → (∀ w ∈ s.inbox, ∃ r, w = .request r ∧ TrueLength s r) →
    (s.src.getD buf { len := 0, cells := [] }).len < 2 ^ 63 →
    ∃ t d, performLine host (.encode buf op off cnt fin) s = some t ∧ Idle t ∧
      OpWord.request (requestOf host buf op off cnt fin s) ∉ t.inbox ∧
      d ∈ t.delivered.drop s.delivered.length ∧ d.req = requestOf host buf op off cnt fin s
end

