-- ==== Sys2Proof/Laws/Memory.lean ====
section
/-! SUPPORT. The laws of byte spaces: a read after a write, and the canonical form. -/

namespace Sys2Proof.Machine

theorem readCells_writeCells_same (cs : List Host.Cell) (x : Nat) (v : Byte) (n lo : Nat)
    (hw : cellsFrom n lo cs = true) : readCells (writeCells cs x v) x = v := by
  induction cs generalizing lo with
  | nil => simp only [writeCells]; split <;> simp_all [readCells]
  | cons c cs ih =>
    obtain ⟨a, w⟩ := c
    simp only [cellsFrom, Bool.and_eq_true, decide_eq_true_eq] at hw
    simp only [writeCells]
    split
    · rename_i h
      simp [readCells, Nat.ne_of_lt h, ih _ hw.2]
    · have miss : ∀ (cs : List Host.Cell) (lo : Nat), x < lo → cellsFrom n lo cs = true →
          readCells cs x = unlistedByte := by
        intro cs
        induction cs with
        | nil => intros; rfl
        | cons c cs ih2 =>
          obtain ⟨a, w⟩ := c
          intro lo hlo h
          simp only [cellsFrom, Bool.and_eq_true, decide_eq_true_eq] at h
          have : a ≠ x := by omega
          simp [readCells, this, ih2 (a + 1) (by omega) h.2]
      split
      · rename_i _ h
        subst h
        split
        · rename_i hv; rw [hv]; exact miss cs (a + 1) (by omega) hw.2
        · simp [readCells]
      · split
        · rename_i hv
          have : a ≠ x := by omega
          simp [readCells, this, hv, miss cs (a + 1) (by omega) hw.2]
        · simp [readCells]

theorem readCells_writeCells_ne (cs : List Host.Cell) {x y : Nat} (v : Byte) (h : y ≠ x) :
    readCells (writeCells cs x v) y = readCells cs y := by
  have h' : x ≠ y := fun e => h e.symm
  induction cs with
  | nil => simp only [writeCells]; split <;> simp [readCells, h']
  | cons c cs ih =>
    obtain ⟨a, w⟩ := c
    simp only [writeCells]
    split
    · simp [readCells, ih]
    · split
      · rename_i _ e
        subst e
        split <;> simp [readCells, h']
      · split <;> simp [readCells, h']

theorem cellsFrom_mono {n lo lo' : Nat} {cs : List Host.Cell} (h : cellsFrom n lo cs = true) (hl : lo' ≤ lo) :
    cellsFrom n lo' cs = true := by
  cases cs with
  | nil => rfl
  | cons c cs =>
    obtain ⟨a, w⟩ := c
    simp only [cellsFrom, Bool.and_eq_true, decide_eq_true_eq] at h ⊢
    exact ⟨⟨⟨by omega, h.1.1.2⟩, h.1.2⟩, h.2⟩

theorem cellsFrom_writeCells {n lo x : Nat} {cs : List Host.Cell} (v : Byte) (h : cellsFrom n lo cs = true)
    (hx : x < n) (hlo : lo ≤ x) : cellsFrom n lo (writeCells cs x v) = true := by
  induction cs generalizing lo with
  | nil => simp only [writeCells]; split <;> simp_all [cellsFrom]
  | cons c cs ih =>
    obtain ⟨a, w⟩ := c
    simp only [cellsFrom, Bool.and_eq_true, decide_eq_true_eq] at h
    obtain ⟨⟨⟨h1, h2⟩, h3⟩, h4⟩ := h
    simp only [writeCells]
    split
    · rename_i hax
      simp [cellsFrom, h1, h2, h3, ih h4 (by omega : a + 1 ≤ x)]
    · split
      · rename_i _ e
        subst e
        split
        · exact cellsFrom_mono h4 (by omega)
        · rename_i hv; simp [cellsFrom, hlo, hx, hv, h4]
      · split
        · simp [cellsFrom, h1, h2, h3, h4]
        · rename_i hv
          simp [cellsFrom, hlo, hx, hv, h2, h3, h4]; omega

/-- A read after a write to the same index gives the value written. -/
theorem Space.read_write_same (sp : Space) (a : Nat) (v : Byte) (h : sp.wf = true) : (sp.write a v).read a = v :=
  readCells_writeCells_same sp.cells a v sp.len 0 h

/-- A write leaves every other index alone. -/
theorem Space.read_write_ne (sp : Space) {a b : Nat} (v : Byte) (h : b ≠ a) : (sp.write a v).read b = sp.read b :=
  readCells_writeCells_ne sp.cells v h

@[simp] theorem Space.write_len (sp : Space) (a : Nat) (v : Byte) : (sp.write a v).len = sp.len := rfl

/-- A write inside the space keeps the canonical form. -/
theorem Space.wf_write (sp : Space) {a : Nat} (v : Byte) (h : sp.wf = true) (ha : a < sp.len) :
    (sp.write a v).wf = true :=
  cellsFrom_writeCells v h ha (Nat.zero_le a)

theorem cellsFrom_cellsOf (bs : List Byte) (n a : Nat) (h : a + bs.length ≤ n) :
    cellsFrom n a (cellsOf a bs) = true := by
  induction bs generalizing a with
  | nil => rfl
  | cons b bs ih =>
    simp only [List.length_cons] at h
    have := ih (a + 1) (by omega)
    simp only [cellsOf]
    split
    · exact cellsFrom_mono this (by omega)
    · rename_i hb; simp [cellsFrom, hb, this]; omega

/-- The buffer of a byte sequence is in canonical form. -/
theorem Space.wf_ofBytes (bs : List Byte) : (Space.ofBytes bs).wf = true :=
  cellsFrom_cellsOf bs _ 0 (by simp [Space.ofBytes])

/-- A space with nothing listed is in canonical form. -/
@[simp] theorem Space.wf_empty (n : Nat) : (Space.mk n []).wf = true := rfl

@[simp] theorem Space.slice_length (sp : Space) (a n : Nat) : (sp.slice a n).length = n := by simp [Space.slice]

theorem Space.slice_getElem (sp : Space) (a n i : Nat) (h : i < (sp.slice a n).length) :
    (sp.slice a n)[i] = sp.read (a + i) := by simp [Space.slice]

@[simp] theorem Space.bytes_length (sp : Space) : sp.bytes.length = sp.len := by simp [Space.bytes]

/-- A sequence that agrees with a space at every index is its bytes. -/
theorem Space.bytes_eq (sp : Space) (bs : List Byte) (hl : bs.length = sp.len)
    (h : ∀ i (hi : i < bs.length), sp.read i = bs[i]) : sp.bytes = bs := by
  apply List.ext_getElem
  · simp [hl]
  · intro i h1 h2
    simp [Space.bytes, Space.slice_getElem, h i h2]

/-- Everything a host's store can do: nothing, where there is no such byte; a refusal, where it is in a payload in use; else the
byte is written. -/
theorem hostStore_cases (buf a : Nat) (v : Byte) (s : State) :
    hostStore buf a v s = .next s ∨
    ((openRequests s).any (inPayload buf a) = true ∧ hostStore buf a v s = .refused .payloadInUse) ∨
    ∃ sp, s.src[buf]? = some sp ∧ a < sp.len ∧ (openRequests s).any (inPayload buf a) = false ∧
      hostStore buf a v s = .next { s with src := s.src.set buf (sp.write a v) } := by
  unfold hostStore
  split
  · exact .inl rfl
  · rename_i sp hsp
    split
    · rename_i ha
      cases hu : (openRequests s).any (inPayload buf a) with
      | true => exact .inr (.inl ⟨rfl, rfl⟩)
      | false => exact .inr (.inr ⟨sp, hsp, ha, rfl, rfl⟩)
    · exact .inl rfl

/-- The host's store between commands keeps the canonical form of every buffer. -/
theorem hostStore_wf {buf a : Nat} {v : Byte} {s t : State} (ht : hostStore buf a v s = .next t)
    (h : memoryWf s = true) : memoryWf t = true := by
  rcases hostStore_cases buf a v s with e | ⟨_, e⟩ | ⟨sp, hsp, ha, _, e⟩ <;> rw [e] at ht <;> cases ht
  · exact h
  · simp only [memoryWf, Bool.and_eq_true, List.all_eq_true] at h ⊢
    refine ⟨fun x hx => ?_, h.2⟩
    rcases List.mem_or_eq_of_mem_set hx with hm | rfl
    · exact h.1 x hm
    · exact Space.wf_write sp v (h.1 sp (List.mem_of_getElem? hsp)) ha

/-- A buffer declared is in canonical form. -/
theorem hostBuffer_wf {bytes : List Byte} {s t : State} (ht : hostBuffer bytes s = .next t)
    (h : memoryWf s = true) : memoryWf t = true := by
  unfold hostBuffer at ht
  split at ht
  · cases ht
  · cases ht
    simp only [memoryWf, Bool.and_eq_true, List.all_eq_true, List.mem_append, List.mem_singleton] at h ⊢
    refine ⟨fun x hx => ?_, h.2⟩
    rcases hx with hx | rfl
    · exact h.1 x hx
    · exact Space.wf_ofBytes bytes

/-- Memory is in canonical form after reset. -/
theorem reset_memoryWf : memoryWf State.reset = true := by decide

end Sys2Proof.Machine
end

