-- ==== Sys2Proof/Laws/State.lean ====
section
/-! SUPPORT. One lemma per field per state update, so that no proof unfolds a record update. -/

namespace Sys2Proof.Machine

/-! `forget` -/

@[simp] theorem forget_cfg (s : State) : (forget s).cfg = s.cfg := rfl
@[simp] theorem forget_regs (s : State) : (forget s).regs = Regs.idle := rfl
@[simp] theorem forget_cmd (s : State) : (forget s).cmd = none := rfl
@[simp] theorem forget_out (s : State) : (forget s).out = none := rfl
@[simp] theorem forget_pending (s : State) : (forget s).pending = s.pending := rfl
@[simp] theorem forget_entropy (s : State) : (forget s).entropy = s.entropy := rfl
@[simp] theorem forget_src (s : State) : (forget s).src = s.src := rfl
@[simp] theorem forget_inbox (s : State) : (forget s).inbox = s.inbox := rfl
@[simp] theorem forget_arbiter (s : State) : (forget s).arbiter = s.arbiter := rfl
@[simp] theorem forget_delivered (s : State) : (forget s).delivered = s.delivered := rfl

/-! `raiseError` -/

@[simp] theorem raiseError_cfg (e : Err) (r : Request) (s : State) : (raiseError e r s).cfg = s.cfg := rfl
@[simp] theorem raiseError_regs (e : Err) (r : Request) (s : State) : (raiseError e r s).regs = Regs.idle := rfl
@[simp] theorem raiseError_cmd (e : Err) (r : Request) (s : State) : (raiseError e r s).cmd = none := rfl
@[simp] theorem raiseError_out (e : Err) (r : Request) (s : State) : (raiseError e r s).out = none := rfl
@[simp] theorem raiseError_pending (e : Err) (r : Request) (s : State) : (raiseError e r s).pending = some ⟨r, errorResponse e⟩ := rfl
@[simp] theorem raiseError_entropy (e : Err) (r : Request) (s : State) : (raiseError e r s).entropy = s.entropy := rfl
@[simp] theorem raiseError_src (e : Err) (r : Request) (s : State) : (raiseError e r s).src = s.src := rfl
@[simp] theorem raiseError_inbox (e : Err) (r : Request) (s : State) : (raiseError e r s).inbox = s.inbox := rfl
@[simp] theorem raiseError_arbiter (e : Err) (r : Request) (s : State) : (raiseError e r s).arbiter = s.arbiter := rfl
@[simp] theorem raiseError_delivered (e : Err) (r : Request) (s : State) : (raiseError e r s).delivered = s.delivered := rfl

/-! `respondOk` -/

@[simp] theorem respondOk_cfg (r : Request) (s : State) : (respondOk r s).cfg = s.cfg := rfl
@[simp] theorem respondOk_regs (r : Request) (s : State) : (respondOk r s).regs = Regs.idle := rfl
@[simp] theorem respondOk_cmd (r : Request) (s : State) : (respondOk r s).cmd = none := rfl
@[simp] theorem respondOk_out (r : Request) (s : State) : (respondOk r s).out = none := rfl
@[simp] theorem respondOk_pending (r : Request) (s : State) : (respondOk r s).pending = some ⟨r, okResponse s⟩ := rfl
@[simp] theorem respondOk_entropy (r : Request) (s : State) : (respondOk r s).entropy = s.entropy := rfl
@[simp] theorem respondOk_src (r : Request) (s : State) : (respondOk r s).src = s.src := rfl
@[simp] theorem respondOk_inbox (r : Request) (s : State) : (respondOk r s).inbox = s.inbox := rfl
@[simp] theorem respondOk_arbiter (r : Request) (s : State) : (respondOk r s).arbiter = s.arbiter := rfl
@[simp] theorem respondOk_delivered (r : Request) (s : State) : (respondOk r s).delivered = s.delivered := rfl

/-! `newFrame` -/

@[simp] theorem newFrame_cfg (s : State) : (newFrame s).cfg = s.cfg := rfl
@[simp] theorem newFrame_regs (s : State) : (newFrame s).regs = { s.regs with idx := 0, pos := 0 } := rfl
@[simp] theorem newFrame_cmd (s : State) : (newFrame s).cmd = s.cmd := rfl
@[simp] theorem newFrame_out (s : State) : (newFrame s).out = some ⟨s.regs.h.toNat + 4 + s.regs.cnt.toNat, []⟩ := rfl
@[simp] theorem newFrame_pending (s : State) : (newFrame s).pending = s.pending := rfl
@[simp] theorem newFrame_entropy (s : State) : (newFrame s).entropy = s.entropy := rfl
@[simp] theorem newFrame_src (s : State) : (newFrame s).src = s.src := rfl
@[simp] theorem newFrame_inbox (s : State) : (newFrame s).inbox = s.inbox := rfl
@[simp] theorem newFrame_arbiter (s : State) : (newFrame s).arbiter = s.arbiter := rfl
@[simp] theorem newFrame_delivered (s : State) : (newFrame s).delivered = s.delivered := rfl

/-! `latchRequest` -/

@[simp] theorem latchRequest_cfg (r : Request) (s : State) : (latchRequest r s).cfg = s.cfg := rfl
@[simp] theorem latchRequest_regs (r : Request) (s : State) : (latchRequest r s).regs = { s.regs with opc := r.opcode.extractLsb 3 0, finr := r.final, cnt := r.count, off := r.offset } := rfl
@[simp] theorem latchRequest_cmd (r : Request) (s : State) : (latchRequest r s).cmd = some r := rfl
@[simp] theorem latchRequest_out (r : Request) (s : State) : (latchRequest r s).out = s.out := rfl
@[simp] theorem latchRequest_pending (r : Request) (s : State) : (latchRequest r s).pending = s.pending := rfl
@[simp] theorem latchRequest_entropy (r : Request) (s : State) : (latchRequest r s).entropy = s.entropy := rfl
@[simp] theorem latchRequest_src (r : Request) (s : State) : (latchRequest r s).src = s.src := rfl
@[simp] theorem latchRequest_inbox (r : Request) (s : State) : (latchRequest r s).inbox = s.inbox := rfl
@[simp] theorem latchRequest_arbiter (r : Request) (s : State) : (latchRequest r s).arbiter = s.arbiter := rfl
@[simp] theorem latchRequest_delivered (r : Request) (s : State) : (latchRequest r s).delivered = s.delivered := rfl

/-! `resetEvent` -/

@[simp] theorem resetEvent_cfg (s : State) : (resetEvent s).cfg = s.cfg := rfl
@[simp] theorem resetEvent_regs (s : State) : (resetEvent s).regs = Regs.idle := rfl
@[simp] theorem resetEvent_cmd (s : State) : (resetEvent s).cmd = none := rfl
@[simp] theorem resetEvent_out (s : State) : (resetEvent s).out = none := rfl
@[simp] theorem resetEvent_pending (s : State) : (resetEvent s).pending = none := rfl
@[simp] theorem resetEvent_entropy (s : State) : (resetEvent s).entropy = { s.entropy with pinned := [] } := rfl
@[simp] theorem resetEvent_src (s : State) : (resetEvent s).src = s.src := rfl
@[simp] theorem resetEvent_inbox (s : State) : (resetEvent s).inbox = s.inbox := rfl
@[simp] theorem resetEvent_arbiter (s : State) : (resetEvent s).arbiter = s.arbiter := rfl
@[simp] theorem resetEvent_delivered (s : State) : (resetEvent s).delivered = s.delivered := rfl

/-! `deliver` -/

@[simp] theorem deliver_cfg (s : State) : (deliver s).cfg = s.cfg := by unfold deliver; split <;> rfl
@[simp] theorem deliver_regs (s : State) : (deliver s).regs = s.regs := by unfold deliver; split <;> rfl
@[simp] theorem deliver_cmd (s : State) : (deliver s).cmd = s.cmd := by unfold deliver; split <;> rfl
@[simp] theorem deliver_out (s : State) : (deliver s).out = s.out := by unfold deliver; split <;> rfl
@[simp] theorem deliver_pending (s : State) : (deliver s).pending = none := by unfold deliver; split <;> simp [*]
@[simp] theorem deliver_entropy (s : State) : (deliver s).entropy = s.entropy := by unfold deliver; split <;> rfl
@[simp] theorem deliver_src (s : State) : (deliver s).src = s.src := by unfold deliver; split <;> rfl
@[simp] theorem deliver_inbox (s : State) : (deliver s).inbox = s.inbox := by unfold deliver; split <;> rfl
@[simp] theorem deliver_arbiter (s : State) : (deliver s).arbiter = s.arbiter := by unfold deliver; split <;> rfl
theorem deliver_delivered (s : State) :
    (deliver s).delivered = s.delivered ++ s.pending.toList := by
  unfold deliver; split <;> simp [*]

/-! Outcomes in sequence -/

@[simp] theorem andThen_next (s : State) (k : State → Result) : andThen (.next s) k = k s := rfl
@[simp] theorem andThen_fault (r : Fault) (k : State → Result) : andThen (.fault r) k = .fault r := rfl
@[simp] theorem andThen_refused (r : Refusal) (k : State → Result) : andThen (.refused r) k = .refused r := rfl

/-- A sequence that answers a next state went through one. -/
theorem andThen_eq_next {o : Result} {k : State → Result} {t : State} (h : andThen o k = .next t) :
    ∃ s, o = .next s ∧ k s = .next t := by
  cases o with
  | next s => exact ⟨s, rfl, h⟩
  | fault r => cases h
  | refused r => cases h

end Sys2Proof.Machine
end

