-- ==== Sys2Proof/Laws/Ops.lean ====
section
/-! SUPPORT. What each shared operation can do, said once: writes to OUT, source reads, the draw, ending a command. -/

namespace Sys2Proof.Machine

/-- `t` differs from `s` at most in OUT and in the counters `I` and `P`. -/
def OutOnly (s t : State) : Prop :=
  ∃ o i p, t = { s with out := o, regs := { s.regs with idx := i, pos := p } }

theorem OutOnly.rfl' (s : State) : OutOnly s s := ⟨s.out, s.regs.idx, s.regs.pos, rfl⟩

theorem OutOnly.trans {s t u : State} (h : OutOnly s t) (h' : OutOnly t u) : OutOnly s u := by
  obtain ⟨o, i, p, rfl⟩ := h
  obtain ⟨o', i', p', rfl⟩ := h'
  exact ⟨o', i', p', rfl⟩

/-! What an output operation leaves alone. -/

theorem OutOnly.cmd {s t : State} (h : OutOnly s t) : t.cmd = s.cmd := by obtain ⟨_, _, _, rfl⟩ := h; rfl
theorem OutOnly.entropy {s t : State} (h : OutOnly s t) : t.entropy = s.entropy := by
  obtain ⟨_, _, _, rfl⟩ := h; rfl
theorem OutOnly.src {s t : State} (h : OutOnly s t) : t.src = s.src := by obtain ⟨_, _, _, rfl⟩ := h; rfl
theorem OutOnly.bufferOf {s t : State} (h : OutOnly s t) (r : Request) : bufferOf t r = bufferOf s r := by
  obtain ⟨_, _, _, rfl⟩ := h; rfl
theorem OutOnly.cnt {s t : State} (h : OutOnly s t) : t.regs.cnt = s.regs.cnt := by
  obtain ⟨_, _, _, rfl⟩ := h; rfl
theorem OutOnly.off {s t : State} (h : OutOnly s t) : t.regs.off = s.regs.off := by
  obtain ⟨_, _, _, rfl⟩ := h; rfl
theorem OutOnly.sel {s t : State} (h : OutOnly s t) : t.regs.sel = s.regs.sel := by
  obtain ⟨_, _, _, rfl⟩ := h; rfl
theorem OutOnly.h {s t : State} (h : OutOnly s t) : t.regs.h = s.regs.h := by
  obtain ⟨_, _, _, rfl⟩ := h; rfl
theorem OutOnly.l7 {s t : State} (h : OutOnly s t) : t.regs.l7 = s.regs.l7 := by
  obtain ⟨_, _, _, rfl⟩ := h; rfl
theorem OutOnly.key {s t : State} (h : OutOnly s t) : t.regs.key = s.regs.key := by
  obtain ⟨_, _, _, rfl⟩ := h; rfl

/-- OUT is in being with length `n`, in canonical form, and its first bytes are `bs`. -/
def OutHolds (s : State) (n : Nat) (bs : List Byte) : Prop :=
  ∃ f, s.out = some f ∧ f.len = n ∧ f.wf = true ∧ ∀ i (h : i < bs.length), f.read i = bs[i]

/-- Everything a write to OUT can do. -/
theorem memWrite_cases (p : Nat) (v : Byte) (s : State) :
    (s.out = none ∧ memWrite p v s = .fault .writeWithoutFrame) ∨
    (∃ f, s.out = some f ∧ ¬ p < f.len ∧ memWrite p v s = .fault .writeOutsideFrame) ∨
    (∃ f, s.out = some f ∧ p < f.len ∧
      memWrite p v s =
        .next { s with out := some (f.write p v), regs := { s.regs with pos := BitVec.ofNat 64 p } }) := by
  unfold memWrite
  cases h : s.out with
  | none => simp
  | some f =>
    by_cases hp : p < f.len
    · simp [hp]
    · exact .inr (.inl ⟨f, rfl, hp, by simp [hp]⟩)

/-- A write that answers a next state wrote inside the frame. -/
theorem memWrite_next {p : Nat} {v : Byte} {s t : State} (h : memWrite p v s = .next t) :
    ∃ f, s.out = some f ∧ p < f.len ∧
      t = { s with out := some (f.write p v), regs := { s.regs with pos := BitVec.ofNat 64 p } } := by
  rcases memWrite_cases p v s with ⟨_, e⟩ | ⟨f, _, _, e⟩ | ⟨f, h1, h2, e⟩ <;> rw [e] at h
  · cases h
  · cases h
  · exact ⟨f, h1, h2, by cases h; rfl⟩

/-- Writing the byte after those already there. -/
theorem memWrite_append {s : State} {n : Nat} {bs : List Byte} (v : Byte) (h : OutHolds s n bs)
    (hn : bs.length < n) : ∃ t, memWrite bs.length v s = .next t ∧ OutOnly s t ∧ OutHolds t n (bs ++ [v]) := by
  obtain ⟨f, ho, rfl, hw, hr⟩ := h
  refine ⟨{ s with out := some (f.write bs.length v), regs := { s.regs with pos := BitVec.ofNat 64 bs.length } },
    by simp [memWrite, ho, hn], ⟨_, s.regs.idx, _, rfl⟩, f.write bs.length v, rfl, rfl, f.wf_write v hw hn, ?_⟩
  intro i hi
  simp only [List.length_append, List.length_cons, List.length_nil] at hi
  by_cases e : i = bs.length
  · subst e; simp [f.read_write_same _ v hw]
  · have : i < bs.length := by omega
    rw [f.read_write_ne v e, List.getElem_append_left this, hr i this]

/-- Writing bytes after those already there. -/
theorem memWriteList_append {s : State} {n : Nat} {bs : List Byte} (vs : List Byte) (h : OutHolds s n bs)
    (hn : bs.length + vs.length ≤ n) :
    ∃ t, memWriteList bs.length vs s = .next t ∧ OutOnly s t ∧ OutHolds t n (bs ++ vs) := by
  induction vs generalizing bs s with
  | nil => exact ⟨s, rfl, .rfl' s, by simpa using h⟩
  | cons v vs ih =>
    simp only [List.length_cons] at hn
    obtain ⟨t, e1, o1, h1⟩ := memWrite_append v h (by omega)
    obtain ⟨u, e2, o2, h2⟩ := ih h1 (by simp; omega)
    refine ⟨u, ?_, o1.trans o2, by simpa using h2⟩
    simpa [memWriteList, e1] using e2

/-- Writing bytes that fit, wherever they go: which indices change, and to what. -/
theorem memWriteList_inside {s : State} {f : Space} (p : Nat) (v : Byte) (vs : List Byte) (ho : s.out = some f)
    (hw : f.wf = true) (hn : p + vs.length < f.len) :
    ∃ g, memWriteList p (v :: vs) s =
        .next { s with out := some g, regs := { s.regs with pos := BitVec.ofNat 64 (p + vs.length) } } ∧
      g.len = f.len ∧ g.wf = true ∧ (∀ i (h : i < (v :: vs).length), g.read (p + i) = (v :: vs)[i]) ∧
      ∀ a, (a < p ∨ p + (v :: vs).length ≤ a) → g.read a = f.read a := by
  induction vs generalizing p v s f with
  | nil =>
    refine ⟨f.write p v, ?_, rfl, f.wf_write v hw hn, ?_, ?_⟩
    · have hp : p < f.len := hn
      simp [memWriteList, memWrite, ho, hp]
    · intro i h
      have : i = 0 := by simpa using h
      subst this
      exact f.read_write_same p v hw
    · intro a ha
      simp only [List.length_cons, List.length_nil] at ha
      exact f.read_write_ne v (by omega)
  | cons w vs ih =>
    simp only [List.length_cons] at hn
    obtain ⟨g, e, gl, gw, gi, gr⟩ :=
      ih (s := { s with out := some (f.write p v), regs := { s.regs with pos := BitVec.ofNat 64 p } })
        (f := f.write p v) (p + 1) w rfl (f.wf_write v hw (by omega)) (by rw [Space.write_len]; omega)
    have hp : p < f.len := by omega
    refine ⟨g, ?_, gl, gw, ?_, ?_⟩
    · have h1 : memWriteList p (v :: w :: vs) s = andThen (memWrite p v s) (memWriteList (p + 1) (w :: vs)) := rfl
      have h2 : memWrite p v s =
          .next { s with out := some (f.write p v), regs := { s.regs with pos := BitVec.ofNat 64 p } } := by
        simp [memWrite, ho, hp]
      rw [h1, h2, andThen_next, e, show p + 1 + vs.length = p + (w :: vs).length by simp; omega]
    · intro i h
      cases i with
      | zero =>
        rw [Nat.add_zero, gr p (.inl (by omega)), f.read_write_same p v hw]; rfl
      | succ i =>
        have := gi i (by simpa using h)
        rwa [show p + 1 + i = p + (i + 1) by omega] at this
    · intro a ha
      simp only [List.length_cons] at ha
      rw [gr a (by simp only [List.length_cons]; omega), f.read_write_ne v (by omega)]

/-- A write changes OUT and `P` only, whatever it answers. -/
theorem memWriteList_next {p : Nat} {vs : List Byte} {s t : State} (h : memWriteList p vs s = .next t) :
    OutOnly s t := by
  induction vs generalizing p s with
  | nil => cases h; exact .rfl' _
  | cons v vs ih =>
    obtain ⟨u, h1, h2⟩ := andThen_eq_next h
    obtain ⟨f, _, _, rfl⟩ := memWrite_next h1
    exact OutOnly.trans ⟨_, s.regs.idx, _, rfl⟩ (ih h2)

/-- A source read inside the buffer of the command in progress. -/
theorem memRead_inside {s : State} {r : Request} {a : Nat} (hc : s.cmd = some r) (h1 : a < r.buflen.toNat)
    (h2 : a < (bufferOf s r).len) : memRead a s = .ok ((bufferOf s r).read a) := by
  simp [memRead, hc, h1, h2]

/-- OUT holding as many bytes as its length holds exactly those. -/
theorem OutHolds.bytes {s : State} {n : Nat} {bs : List Byte} (h : OutHolds s n bs) (hl : bs.length = n) :
    ∃ f, s.out = some f ∧ f.len = n ∧ f.wf = true ∧ f.bytes = bs := by
  obtain ⟨f, ho, rfl, hw, hr⟩ := h
  exact ⟨f, ho, rfl, hw, f.bytes_eq bs hl hr⟩

/-- A frame just sized holds nothing yet. -/
theorem newFrame_holds (s : State) : OutHolds (newFrame s) (s.regs.h.toNat + 4 + s.regs.cnt.toNat) [] :=
  ⟨_, rfl, rfl, rfl, by simp⟩

/-- The three tests of FE.CHECK, in their order (R86, R140). -/
theorem checkRequest_eq (c : Config) (r : Request) :
    checkRequest c r =
      if 15 < r.opcode.toNat then some .invalidOpcode
      else if c.maxCount.val < r.count.toNat then some .sizeError
      else if r.buflen.toNat < r.offset.toNat + r.count.toNat then some .invalidRange
      else none := by
  simp [checkRequest, opcodeIllegal, countTooLarge, rangeOutside]

/-- A request that passes FE.CHECK. -/
theorem checkRequest_none {c : Config} {r : Request} (h : checkRequest c r = none) :
    r.opcode.toNat ≤ 15 ∧ r.count.toNat ≤ c.maxCount.val ∧ r.offset.toNat + r.count.toNat ≤ r.buflen.toNat := by
  rw [checkRequest_eq] at h
  split at h
  · cases h
  · split at h
    · cases h
    · split at h
      · cases h
      · omega

/-- What the true length says (R167). -/
theorem lengthTrue_iff (s : State) (r : Request) :
    lengthTrue s r = true ↔ r.buflen.toNat = (bufferOf s r).len ∧ r.buflen.toNat < 2 ^ 63 := by
  simp [lengthTrue, Request.legal]

/-- Everything the front end of FE.CHECK and ENCODE can do. -/
theorem checkThen_cases (r : Request) (s : State) (k : State → Result) :
    (lengthTrue s r = false ∧ checkThen r s k = .refused .bufferLengthMisstated) ∨
    (∃ e, lengthTrue s r = true ∧ checkRequest s.cfg r = some e ∧ checkThen r s k = .next (raiseError e r s)) ∨
    (lengthTrue s r = true ∧ checkRequest s.cfg r = none ∧ checkThen r s k = k (latchRequest r s)) := by
  unfold checkThen
  cases h : lengthTrue s r with
  | false => simp
  | true =>
    cases hc : checkRequest s.cfg r with
    | none => simp
    | some e => simp

end Sys2Proof.Machine
end

