-- ==== Sys2Proof/Laws/Frame.lean ====
section
/-! SUPPORT. The payload loop and the building of a frame, said once: the bytes they leave in OUT. -/

namespace Sys2Proof.Machine

@[simp] theorem maskedFrom_length (k : Key) (i : Nat) (p : List Byte) : (maskedFrom k i p).length = p.length := by
  induction p generalizing i with
  | nil => rfl
  | cons b p ih => simp [maskedFrom, ih]

theorem maskedFrom_getElem (k : Key) (i j : Nat) (p : List Byte) (h : j < (maskedFrom k i p).length) :
    (maskedFrom k i p)[j] = p[j]'(by simpa using h) ^^^ keyLane k (i + j) := by
  induction p generalizing i j with
  | nil => simp [maskedFrom] at h
  | cons b p ih =>
    cases j with
    | zero => simp [maskedFrom]
    | succ j => simp [maskedFrom, ih, show i + 1 + j = i + (j + 1) by omega]

@[simp] theorem masked_length (k : Key) (p : List Byte) : (masked k p).length = p.length := by simp [masked]

/-- Byte `i` of the masked payload is payload byte `i` XORed with `K[i mod 4]` (R125). -/
theorem masked_getElem (k : Key) (i : Nat) (p : List Byte) (h : i < (masked k p).length) :
    (masked k p)[i] = p[i]'(by simpa using h) ^^^ keyLane k i := by
  simp [masked, maskedFrom_getElem]

@[simp] theorem keyBytes_length (k : Key) : (keyBytes k).length = 4 := rfl

/-- The key lane depends on the index modulo 4 only. -/
theorem keyLane_mod (k : Key) (i : Nat) : keyLane k (i % 4) = keyLane k i := by simp [keyLane]

theorem header_length (fin : Bool) (opc : BitVec 4) (c : BitVec 64) :
    (header fin opc c).length = hdrlen c.toNat := by
  unfold header hdrlen
  split
  · rfl
  · split <;> rfl

theorem frameOf_length (fin : Bool) (opc : BitVec 4) (c : BitVec 64) (k : Key) (p : List Byte) :
    (frameOf fin opc c k p).length = hdrlen c.toNat + 4 + p.length := by
  simp [frameOf, header_length, Nat.add_assoc]

/-- The header size of HP.LENSEL is `hdrlen`. -/
theorem shape_h (c : BitVec 64) : (shape c).h.toNat = hdrlen c.toNat := by
  unfold shape hdrlen
  split
  · rfl
  · split <;> rfl

/-- What MK.XOR does inside the frame and inside the buffer. -/
theorem execMkXor_append {s : State} {r : Request} {n i : Nat} {bs : List Byte} (hc : s.cmd = some r)
    (ho : OutHolds s n bs) (hl : bs.length = s.regs.h.toNat + 4 + i) (hn : bs.length < n) (hi : i < 2 ^ 64)
    (h1 : s.regs.off.toNat + i < r.buflen.toNat) (h2 : s.regs.off.toNat + i < (bufferOf s r).len) :
    ∃ t, execMkXor (BitVec.ofNat 64 i) s = .next t ∧ OutOnly s t ∧
      OutHolds t n (bs ++ [(bufferOf s r).read (s.regs.off.toNat + i) ^^^ keyLane s.regs.key i]) := by
  have hi' : (BitVec.ofNat 64 i).toNat = i := by rw [BitVec.toNat_ofNat, Nat.mod_eq_of_lt hi]
  have hr := memRead_inside hc h1 h2
  obtain ⟨t, e, o, h⟩ := memWrite_append
    (s := { s with regs := { s.regs with idx := BitVec.ofNat 64 i } })
    ((bufferOf s r).read (s.regs.off.toNat + i) ^^^ keyLane s.regs.key i) ho hn
  refine ⟨t, ?_, OutOnly.trans ⟨s.out, _, s.regs.pos, rfl⟩ o, h⟩
  simp only [execMkXor, hi', hr]
  rw [← hl]; exact e

/-- The first of `n + 1` bytes, and the rest. -/
theorem Space.slice_succ (sp : Space) (a n : Nat) : sp.slice a (n + 1) = sp.read a :: sp.slice (a + 1) n := by
  simp only [Space.slice, List.range_succ_eq_map, List.map_cons, List.map_map]
  refine congrArg₂ _ (by simp) (List.map_congr_left fun x _ => ?_)
  simp only [Function.comp]; congr 1; omega

/-- The payload loop: `n` masked bytes after those already in OUT. -/
theorem payloadLoop_append {s : State} {r : Request} {m : Nat} {bs : List Byte} (n i : Nat) (hc : s.cmd = some r)
    (ho : OutHolds s m bs) (hl : bs.length = s.regs.h.toNat + 4 + i) (hn : bs.length + n ≤ m) (hi : i + n ≤ 2 ^ 64)
    (h1 : s.regs.off.toNat + i + n ≤ r.buflen.toNat) (h2 : s.regs.off.toNat + i + n ≤ (bufferOf s r).len) :
    ∃ t, payloadLoop n i s = .next t ∧ OutOnly s t ∧
      OutHolds t m (bs ++ maskedFrom s.regs.key i ((bufferOf s r).slice (s.regs.off.toNat + i) n)) := by
  induction n generalizing i s bs with
  | zero => exact ⟨s, rfl, .rfl' s, by simpa [Space.slice, maskedFrom] using ho⟩
  | succ n ih =>
    obtain ⟨t, e1, o1, t1⟩ := execMkXor_append hc ho hl (by omega) (by omega) (by omega) (by omega)
    obtain ⟨u, e2, o2, u1⟩ := ih (s := t) (i + 1) (by rw [o1.cmd]; exact hc) t1
      (by rw [o1.h]; simp; omega) (by simp; omega) (by omega) (by rw [o1.off]; omega)
      (by rw [o1.off, o1.bufferOf]; omega)
    refine ⟨u, by simpa [payloadLoop, e1] using e2, o1.trans o2, ?_⟩
    rw [o1.off, o1.bufferOf, o1.key] at u1
    rw [Space.slice_succ, maskedFrom]
    simpa [Nat.add_assoc] using u1

/-- A count with bit 63 clear, cut to 63 bits and put back into 64, is itself. -/
theorem low63_eq (c : BitVec 64) (hc : c.toNat < 2 ^ 63) : (c.extractLsb 62 0).setWidth 64 = c := by
  apply BitVec.eq_of_toNat_eq
  simp only [BitVec.extractLsb_toNat, BitVec.toNat_setWidth]
  omega

/-- The two bytes of the low 16 bits. -/
theorem split16_low16 (c : BitVec 64) :
    split16 (c.extractLsb 15 0) = [c.extractLsb 15 8, c.extractLsb 7 0] := by
  have h1 : (c.extractLsb 15 0).extractLsb 15 8 = c.extractLsb 15 8 := by
    apply BitVec.eq_of_toNat_eq
    simp only [BitVec.extractLsb_toNat, Nat.shiftRight_eq_div_pow]
    omega
  have h0 : (c.extractLsb 15 0).extractLsb 7 0 = c.extractLsb 7 0 := by
    apply BitVec.eq_of_toNat_eq
    simp only [BitVec.extractLsb_toNat, Nat.shiftRight_eq_div_pow]
    omega
  rw [split16, h1, h0]

/-- The header in terms of what HP.BYTE0, HP.BYTE1, HP.EXT16 and HP.EXT64 write. -/
theorem header_eq (fin : Bool) (opc : BitVec 4) (c : BitVec 64) (hc : c.toNat < 2 ^ 63) :
    header fin opc c = [byte0 fin opc] ++ [byte1 (shape c).l7] ++
      (if (shape c).sel = 1 then split16 (c.extractLsb 15 0) else []) ++
      (if (shape c).sel = 2 then split64 ((c.extractLsb 62 0).setWidth 64) else []) := by
  rw [low63_eq c hc, split16_low16]
  unfold header shape
  split
  · simp
  · split <;> simp [split64, byte1]

/-- `SEL` and `H` of a header shape go together (R105). -/
theorem shape_pair (c : BitVec 64) :
    ((shape c).sel = 0 ∧ (shape c).h = 2) ∨ ((shape c).sel = 1 ∧ (shape c).h = 4) ∨
      ((shape c).sel = 2 ∧ (shape c).h = 10) := by
  unfold shape
  split
  · simp
  · split <;> simp

/-- HP.EXT16 after the bytes already in OUT: two bytes exactly when `SEL = 1`. -/
theorem execHpExt16_append {s : State} {n : Nat} {bs : List Byte} (v : BitVec 16) (h : OutHolds s n bs)
    (hb : bs.length = 2) (hn : s.regs.sel = 1 → 4 ≤ n) :
    ∃ t, execHpExt16 v s = .next t ∧ OutOnly s t ∧
      OutHolds t n (bs ++ if s.regs.sel = 1 then split16 v else []) := by
  unfold execHpExt16
  by_cases h1 : s.regs.sel = 1
  · obtain ⟨t, e, o, h'⟩ := memWriteList_append (split16 v) h (by rw [hb]; exact hn h1)
    rw [hb] at e
    exact ⟨t, by rw [if_pos h1, e], o, by rw [if_pos h1]; exact h'⟩
  · exact ⟨s, by rw [if_neg h1], .rfl' s, by rw [if_neg h1]; simpa using h⟩

/-- HP.EXT64 after the bytes already in OUT: eight bytes exactly when `SEL = 2`. -/
theorem execHpExt64_append {s : State} {n : Nat} {bs : List Byte} (v : BitVec 63) (h : OutHolds s n bs)
    (hb : s.regs.sel = 2 → bs.length = 2) (hn : s.regs.sel = 2 → 10 ≤ n) :
    ∃ t, execHpExt64 v s = .next t ∧ OutOnly s t ∧
      OutHolds t n (bs ++ if s.regs.sel = 2 then split64 (v.setWidth 64) else []) := by
  unfold execHpExt64
  by_cases h1 : s.regs.sel = 2
  · obtain ⟨t, e, o, h'⟩ := memWriteList_append (split64 (v.setWidth 64)) h (by rw [hb h1]; exact hn h1)
    rw [hb h1] at e
    exact ⟨t, by rw [if_pos h1, e], o, by rw [if_pos h1]; exact h'⟩
  · exact ⟨s, by rw [if_neg h1], .rfl' s, by rw [if_neg h1]; simpa using h⟩

/-- The registers hold the header shape of their count, as after HP.LENSEL (R105). -/
def ShapeLatched (s : State) : Prop :=
  s.regs.sel = (shape s.regs.cnt).sel ∧ s.regs.h = (shape s.regs.cnt).h ∧ s.regs.l7 = (shape s.regs.cnt).l7

theorem payloadAt_length {s : State} {n : Nat} (hp : PayloadInside s n) : (payloadAt s n).length = n := by
  unfold payloadAt
  rcases hp with h0 | ⟨r, hr, _⟩
  · split <;> simp [h0]
  · simp [hr]

/-- The payload loop after header and key. -/
theorem payloadLoop_whole {s : State} {m : Nat} {bs : List Byte} (hp : PayloadInside s s.regs.cnt.toNat)
    (ho : OutHolds s m bs) (hl : bs.length = s.regs.h.toNat + 4) (hm : m = s.regs.h.toNat + 4 + s.regs.cnt.toNat) :
    ∃ t, payloadLoop s.regs.cnt.toNat 0 s = .next t ∧ OutOnly s t ∧
      OutHolds t m (bs ++ masked s.regs.key (payloadAt s s.regs.cnt.toNat)) := by
  rcases hp with h0 | ⟨r, hr, hb1, hb2⟩
  · refine ⟨s, by rw [h0]; rfl, .rfl' s, ?_⟩
    have : payloadAt s s.regs.cnt.toNat = [] := by
      unfold payloadAt; split <;> simp [h0, Space.slice]
    rw [this]
    simpa [masked, maskedFrom] using ho
  · have hlt := s.regs.cnt.isLt
    obtain ⟨t, e, o, h⟩ := payloadLoop_append s.regs.cnt.toNat 0 hr ho (by omega) (by omega) (by omega)
      (by omega) (by omega)
    refine ⟨t, e, o, ?_⟩
    have : payloadAt s s.regs.cnt.toNat = (bufferOf s r).slice s.regs.off.toNat s.regs.cnt.toNat := by
      simp [payloadAt, hr]
    rw [this]
    exact h

/-- The steps of `buildFrame` before the draw: OUT holds the header, and the draw comes next. -/
theorem buildFrame_header (s : State) (hc : s.regs.cnt.toNat < 2 ^ 63) (hs : ShapeLatched s) :
    ∃ u, OutOnly s u ∧
      OutHolds u (s.regs.h.toNat + 4 + s.regs.cnt.toNat) (header s.regs.finr s.regs.opc s.regs.cnt) ∧
      buildFrame s = andThen (execMkKeygen u) fun s => andThen (execMkKeywr s.regs.key s) fun s =>
        payloadLoop s.regs.cnt.toNat 0 s := by
  obtain ⟨hsel, hh, hl⟩ := hs
  have hH : s.regs.h.toNat = hdrlen s.regs.cnt.toNat := by rw [hh, shape_h]
  have hH4 : s.regs.sel = 1 → s.regs.h.toNat = 4 := by
    rw [hsel, hh]; rcases shape_pair s.regs.cnt with ⟨a, b⟩ | ⟨a, b⟩ | ⟨a, b⟩ <;> rw [a, b] <;> decide
  have hH10 : s.regs.sel = 2 → s.regs.h.toNat = 10 := by
    rw [hsel, hh]; rcases shape_pair s.regs.cnt with ⟨a, b⟩ | ⟨a, b⟩ | ⟨a, b⟩ <;> rw [a, b] <;> decide
  have n0 : OutOnly s (newFrame s) := ⟨_, 0, 0, rfl⟩
  obtain ⟨s1, e1, o1, t1⟩ := memWrite_append (byte0 s.regs.finr s.regs.opc) (newFrame_holds s) (by simp)
  replace o1 := n0.trans o1
  obtain ⟨s2, e2, o2, t2⟩ := memWrite_append (byte1 s1.regs.l7) t1 (by simp; omega)
  replace o2 := o1.trans o2
  obtain ⟨s3, e3, o3, t3⟩ := execHpExt16_append (s2.regs.cnt.extractLsb 15 0) t2 (by simp)
    (by intro h; have := hH4 (by rw [← o2.sel]; exact h); omega)
  replace o3 := o2.trans o3
  obtain ⟨s4, e4, o4, t4⟩ := execHpExt64_append (s3.regs.cnt.extractLsb 62 0) t3
    (by
      intro h
      rw [o3.sel] at h
      rw [o2.sel, h]
      rfl)
    (by intro h; have := hH10 (by rw [← o3.sel]; exact h); omega)
  replace o4 := o3.trans o4
  refine ⟨s4, o4, ?_, ?_⟩
  · rw [header_eq _ _ _ hc, ← hsel, ← hl]
    simpa only [List.nil_append, o1.l7, o2.sel, o2.cnt, o3.sel, o3.cnt] using t4
  · unfold buildFrame execHpByte0 execHpByte1
    simp only [List.length_nil] at e1
    rw [e1, andThen_next]
    simp only [List.nil_append, List.length_cons, List.length_nil, Nat.zero_add] at e2
    rw [e2, andThen_next, e3, andThen_next, e4, andThen_next]

/-- With no answer to the draw, building a frame stops there (R164). -/
theorem buildFrame_stuck (s : State) (hc : s.regs.cnt.toNat < 2 ^ 63) (hs : ShapeLatched s)
    (ha : s.entropy.answering = false) : buildFrame s = .fault .drawUnanswered := by
  obtain ⟨u, o, _, e⟩ := buildFrame_header s hc hs
  rw [e, execMkKeygen, o.entropy, ha]
  rfl

/-- Building a frame from the registers: OUT holds the whole frame, one draw was made, the key is in its register, and
nothing else but `I` and `P` has changed. -/
theorem buildFrame_spec (s : State) (hc : s.regs.cnt.toNat < 2 ^ 63) (hs : ShapeLatched s)
    (ha : s.entropy.answering = true) (hp : PayloadInside s s.regs.cnt.toNat) :
    ∃ i p f, buildFrame s = .next
        { s with out := some f, entropy := s.entropy.advance,
                 regs := { s.regs with key := s.entropy.answer, idx := i, pos := p } } ∧
      f.len = framelen s.regs.cnt.toNat ∧ f.wf = true ∧
      f.bytes = frameOf s.regs.finr s.regs.opc s.regs.cnt s.entropy.answer (payloadAt s s.regs.cnt.toNat) := by
  have hH : s.regs.h.toNat = hdrlen s.regs.cnt.toNat := by rw [hs.2.1, shape_h]
  have hhl := header_length s.regs.finr s.regs.opc s.regs.cnt
  obtain ⟨s4, o4, t4', e0⟩ := buildFrame_header s hc hs
  -- the draw
  obtain ⟨s5, hs5⟩ : ∃ s5 : State, s5 = { s4 with entropy := s4.entropy.advance, regs := { s4.regs with key := s4.entropy.answer } } := ⟨_, rfl⟩
  have e5 : execMkKeygen s4 = .next s5 := by rw [execMkKeygen, o4.entropy, if_pos ha, hs5, o4.entropy]
  have t5 : OutHolds s5 (s.regs.h.toNat + 4 + s.regs.cnt.toNat) (header s.regs.finr s.regs.opc s.regs.cnt) := by
    rw [hs5]; exact t4'
  have k5 : s5.regs.key = s.entropy.answer := by rw [hs5]; exact congrArg Entropy.answer o4.entropy
  have h5 : s5.regs.h = s.regs.h := by rw [hs5]; exact o4.h
  have c5 : s5.regs.cnt = s.regs.cnt := by rw [hs5]; exact o4.cnt
  have f5 : s5.regs.off = s.regs.off := by rw [hs5]; exact o4.off
  have m5 : s5.cmd = s.cmd := by rw [hs5]; exact o4.cmd
  have b5 : ∀ r, bufferOf s5 r = bufferOf s r := by intro r; rw [hs5]; exact o4.bufferOf r
  -- the key field
  obtain ⟨s6, e6, o6, t6⟩ := memWriteList_append (keyBytes s5.regs.key) t5
    (by rw [hhl, keyBytes_length]; omega)
  -- the payload
  have p5 : ∀ n, payloadAt s6 n = payloadAt s n := by
    intro n; unfold payloadAt; rw [o6.cmd, m5]; split
    · rfl
    · rw [o6.bufferOf, b5, o6.off, f5]
  have hp6 : PayloadInside s6 s6.regs.cnt.toNat := by
    rw [o6.cnt, c5]
    rcases hp with h0 | ⟨r, hr, hb1, hb2⟩
    · exact .inl h0
    · exact .inr ⟨r, by rw [o6.cmd, m5, hr], by rw [o6.off, f5]; exact hb1,
        by rw [o6.off, f5, o6.bufferOf, b5]; exact hb2⟩
  obtain ⟨s7, e7, o7, t7⟩ := payloadLoop_whole hp6 t6
    (by rw [List.length_append, hhl, keyBytes_length, o6.h, h5, hH]) (by rw [o6.h, o6.cnt, h5, c5])
  rw [o6.key, k5, p5, o6.cnt, c5] at t7
  obtain ⟨f, hf, fl, fw, fb⟩ := t7.bytes (by
    rw [List.length_append, List.length_append, hhl, keyBytes_length, masked_length, payloadAt_length hp, hH])
  obtain ⟨q, i, p, e⟩ := o4
  obtain ⟨q', i', p', e'⟩ := o6.trans o7
  refine ⟨i', p', f, ?_, by rw [fl, hH, framelen], fw, fb⟩
  have hfin : buildFrame s = .next s7 := by
    rw [e0, e5, andThen_next]
    unfold execMkKeywr
    rw [hhl, ← hH, ← h5] at e6
    rw [e6, andThen_next, e7]
  rw [hfin]
  have hq : q' = some f := by rw [← hf, e']
  rw [e', hq, hs5, e]

end Sys2Proof.Machine
end

