-- ==== Sys2Proof/Laws/Effects.lean ====
section
/-! SUPPORT. What each operation may touch, and what a step is made of, said once. -/

namespace Sys2Proof.Machine

/-- OUT is in canonical form, where it is in being. -/
def OutWf (s : State) : Prop :=
  match s.out with
  | none => True
  | some f => f.wf = true

/-- Memory is in canonical form exactly when every buffer is and OUT is. -/
theorem memoryWf_iff (s : State) : memoryWf s = true ↔ (s.src.all Space.wf = true ∧ OutWf s) := by
  unfold memoryWf OutWf
  cases s.out <;> simp

/-- The hosts' side of a state is kept: buffers, parameters, waiting words, service choice, delivered responses. -/
structure HostKept (s t : State) : Prop where
  src : t.src = s.src
  cfg : t.cfg = s.cfg
  inbox : t.inbox = s.inbox
  arbiter : t.arbiter = s.arbiter
  delivered : t.delivered = s.delivered

theorem HostKept.rfl' (s : State) : HostKept s s := ⟨rfl, rfl, rfl, rfl, rfl⟩

theorem HostKept.trans {s t u : State} (h : HostKept s t) (h' : HostKept t u) : HostKept s u :=
  ⟨h'.src.trans h.src, h'.cfg.trans h.cfg, h'.inbox.trans h.inbox, h'.arbiter.trans h.arbiter,
    h'.delivered.trans h.delivered⟩

/-- What an operation inside a command keeps, whatever it writes: the hosts' side, the count, the header shape, the pending
response, and the canonical form of OUT. -/
structure Inside (s t : State) : Prop where
  host : HostKept s t
  cnt : t.regs.cnt = s.regs.cnt
  sel : t.regs.sel = s.regs.sel
  h : t.regs.h = s.regs.h
  pending : t.pending = s.pending
  wf : OutWf s → OutWf t

theorem Inside.rfl' (s : State) : Inside s s := ⟨.rfl' s, rfl, rfl, rfl, rfl, id⟩

theorem Inside.trans {s t u : State} (h : Inside s t) (h' : Inside t u) : Inside s u :=
  ⟨h.host.trans h'.host, h'.cnt.trans h.cnt, h'.sel.trans h.sel, h'.h.trans h.h, h'.pending.trans h.pending,
    h'.wf ∘ h.wf⟩

theorem memWrite_inside {p : Nat} {v : Byte} {s t : State} (h : memWrite p v s = .next t) : Inside s t := by
  obtain ⟨f, ho, hp, rfl⟩ := memWrite_next h
  refine ⟨⟨rfl, rfl, rfl, rfl, rfl⟩, rfl, rfl, rfl, rfl, fun hw => ?_⟩
  simp only [OutWf, ho] at hw
  exact f.wf_write v hw hp

/-- A write keeps the canonical form of all memory. -/
theorem memWrite_memoryWf {p : Nat} {v : Byte} {s t : State} (h : memWrite p v s = .next t)
    (hw : memoryWf s = true) : memoryWf t = true := by
  have i := memWrite_inside h
  rw [memoryWf_iff] at hw ⊢
  exact ⟨by rw [i.host.src]; exact hw.1, i.wf hw.2⟩

/-- A write of several bytes inside a command. -/
theorem memWriteList_inside_kept {p : Nat} {vs : List Byte} {s t : State} (h : memWriteList p vs s = .next t) :
    Inside s t := by
  induction vs generalizing p s with
  | nil => cases h; exact .rfl' _
  | cons v vs ih =>
    obtain ⟨u, h1, h2⟩ := andThen_eq_next h
    exact (memWrite_inside h1).trans (ih h2)

theorem execHpExt16_inside {n : BitVec 16} {s t : State} (h : execHpExt16 n s = .next t) : Inside s t := by
  unfold execHpExt16 at h
  split at h
  · exact memWriteList_inside_kept h
  · cases h; exact .rfl' _

theorem execHpExt64_inside {n : BitVec 63} {s t : State} (h : execHpExt64 n s = .next t) : Inside s t := by
  unfold execHpExt64 at h
  split at h
  · exact memWriteList_inside_kept h
  · cases h; exact .rfl' _

theorem execMkKeygen_inside {s t : State} (h : execMkKeygen s = .next t) : Inside s t := by
  unfold execMkKeygen at h
  split at h
  · cases h; exact ⟨⟨rfl, rfl, rfl, rfl, rfl⟩, rfl, rfl, rfl, rfl, id⟩
  · cases h

theorem execMkXor_inside {i : BitVec 64} {s t : State} (h : execMkXor i s = .next t) : Inside s t := by
  unfold execMkXor at h
  split at h
  · cases h
  · have m := memWrite_inside h
    exact ⟨⟨m.host.src, m.host.cfg, m.host.inbox, m.host.arbiter, m.host.delivered⟩, m.cnt, m.sel, m.h, m.pending, m.wf⟩

theorem payloadLoop_inside {n i : Nat} {s t : State} (h : payloadLoop n i s = .next t) : Inside s t := by
  induction n generalizing i s with
  | zero => cases h; exact .rfl' _
  | succ n ih =>
    obtain ⟨u, h1, h2⟩ := andThen_eq_next h
    exact (execMkXor_inside h1).trans (ih h2)

/-- Building a frame, whatever it builds. -/
theorem buildFrame_inside {s t : State} (h : buildFrame s = .next t) : Inside (newFrame s) t := by
  unfold buildFrame at h
  obtain ⟨s1, h1, h⟩ := andThen_eq_next h
  obtain ⟨s2, h2, h⟩ := andThen_eq_next h
  obtain ⟨s3, h3, h⟩ := andThen_eq_next h
  obtain ⟨s4, h4, h⟩ := andThen_eq_next h
  obtain ⟨s5, h5, h⟩ := andThen_eq_next h
  obtain ⟨s6, h6, h⟩ := andThen_eq_next h
  exact (memWrite_inside h1).trans <| (memWrite_inside h2).trans <| (execHpExt16_inside h3).trans <|
    (execHpExt64_inside h4).trans <| (execMkKeygen_inside h5).trans <| (memWriteList_inside_kept h6).trans
      (payloadLoop_inside h)

/-- A header shape with a count below 2^63 is sound (R23). -/
theorem regsSound_of_shape {g : Regs} {c : BitVec 64} (hc : g.cnt.toNat < 2 ^ 63) (h1 : g.sel = (shape c).sel)
    (h2 : g.h = (shape c).h) : RegsSound g := by
  refine ⟨hc, ?_⟩
  rw [h1, h2]
  rcases shape_pair c with h | h | h <;> simp [h]

/-- The code of an error is not that of a success. -/
theorem statusCode_ne (e : Err) : statusCode e ≠ statusOk := by cases e <;> decide

/-- An error response is sound. -/
theorem errorResponse_sound (e : Err) (r : Request) : ResponseSound ⟨r, errorResponse e⟩ :=
  .inr ⟨statusCode_ne e, rfl, rfl⟩

/-- The arbiter picks a place that is there. -/
theorem Arbiter.pick_lt (a : Arbiter) {n : Nat} (h : 0 < n) : a.pick n < n := by
  unfold Arbiter.pick
  split
  · exact h
  · exact Nat.mod_lt _ h

/-- The oldest waiting word is taken, or it is passed over, stays the oldest, and may be passed over once less (R148). -/
theorem takeWord_oldest {s u : State} {w v : OpWord} {ws : List OpWord} (hs : s.inbox = v :: ws)
    (h : takeWord s = some (w, u)) :
    (w = v ∧ u.inbox = ws) ∨
    (0 < s.arbiter.patience ∧ u.arbiter.patience + 1 = s.arbiter.patience ∧
      ∃ k, ∃ hk : k < ws.length, w = ws[k] ∧ u.inbox = v :: ws.eraseIdx k) := by
  unfold takeWord at h
  rw [hs] at h
  cases ws with
  | nil => cases h; exact .inl ⟨rfl, rfl⟩
  | cons v' vs =>
    have hk := s.arbiter.pick_lt (n := vs.length + 2) (by omega)
    simp only [Option.some.injEq, Prod.mk.injEq] at h
    obtain ⟨rfl, rfl⟩ := h
    by_cases hp : s.arbiter.pick (vs.length + 2) = 0
    · left; rw [hp]; exact ⟨rfl, rfl⟩
    · right
      have hpos : 0 < s.arbiter.patience := by
        rcases Nat.eq_zero_or_pos s.arbiter.patience with h0 | h0
        · exact absurd (if_pos h0) hp
        · exact h0
      obtain ⟨k, hk'⟩ := Nat.exists_eq_succ_of_ne_zero hp
      refine ⟨hpos, ?_, k, by simp; omega, ?_, ?_⟩
      · simp only [Arbiter.after, if_neg hp, Arbiter.patience]
        exact Nat.sub_add_cancel hpos
      · rw [hk', List.getD_eq_getElem (hn := by simp; omega)]; rfl
      · rw [hk']; rfl

/-- A word taken out waited, and the others go on waiting; besides the inbox and the service choice nothing changes. -/
theorem takeWord_waited {s u : State} {w : OpWord} (h : takeWord s = some (w, u)) :
    w ∈ s.inbox ∧ u.inbox.length + 1 = s.inbox.length ∧ (∀ x ∈ u.inbox, x ∈ s.inbox) ∧
      ∃ ws a, u = { s with inbox := ws, arbiter := a } := by
  unfold takeWord at h
  split at h
  · cases h
  · rename_i v hv
    cases h
    exact ⟨by simp [hv], by simp [hv], by simp, [], s.arbiter.cleared, rfl⟩
  · rename_i v v' vs hv
    have hk : s.arbiter.pick (vs.length + 2) < (v :: v' :: vs).length := s.arbiter.pick_lt (by omega)
    cases h
    refine ⟨?_, ?_, ?_, _, _, rfl⟩
    · rw [hv, List.getD_eq_getElem (hn := hk)]; exact List.getElem_mem hk
    · rw [hv, List.length_eraseIdx, if_pos hk]; rfl
    · intro x hx; rw [hv]; exact List.mem_of_mem_eraseIdx hx

/-- A step with a next state: nothing waited, or a word was taken, decoded, performed and its response delivered. -/
theorem step_next_cases {s t : State} (h : step s = .next t) :
    (s.inbox = [] ∧ t = s) ∨
    ∃ w u i v, takeWord s = some (w, u) ∧ decode w = .ok i ∧ exec i u = .next v ∧ t = deliver v := by
  unfold step at h
  split at h
  · rename_i hn
    cases h
    refine .inl ⟨?_, rfl⟩
    unfold takeWord at hn
    split at hn
    · assumption
    · cases hn
    · cases hn
  · rename_i w u hw
    split at h
    · cases h
    · rename_i i hi
      obtain ⟨v, h1, h2⟩ := andThen_eq_next h
      cases h2
      exact .inr ⟨w, u, i, v, hw, hi, h1, rfl⟩

end Sys2Proof.Machine
end

