-- ==== Sys2Proof/Laws/Encoding.lean ====
section
/-! SUPPORT. Bytes taken apart and put together again: the fields of bytes 0 and 1, and the big-endian lengths. -/

namespace Sys2Proof

/-- The fields of byte 0 (R61). -/
theorem byte0_fin : ∀ fin opc, (byte0 fin opc).getLsbD 7 = fin := by decide
theorem byte0_rsv : ∀ fin opc, (byte0 fin opc).extractLsb 6 4 = 0 := by decide
theorem byte0_opcode : ∀ fin opc, (byte0 fin opc).extractLsb 3 0 = opc := by decide

/-- The fields of byte 1 (R62). -/
theorem byte1_mask : ∀ l7, (byte1 l7).getLsbD 7 = true := by decide
theorem byte1_len7 : ∀ l7, (byte1 l7).extractLsb 6 0 = l7 := by decide

/-- A byte with RSV clear is the byte 0 of its fields; a byte with MASK set is the byte 1 of its field. -/
theorem byte0_of_fields : ∀ b : Byte, b.extractLsb 6 4 = 0 → byte0 (b.getLsbD 7) (b.extractLsb 3 0) = b := by decide
theorem byte1_of_field : ∀ b : Byte, b.getLsbD 7 = true → byte1 (b.extractLsb 6 0) = b := by decide

/-- The two bytes of 16 bits, joined. -/
theorem append_split16 (n : BitVec 16) : n.extractLsb 15 8 ++ n.extractLsb 7 0 = n := by
  apply BitVec.eq_of_getLsbD_eq
  intro i hi
  simp only [BitVec.getLsbD_append, BitVec.getLsbD_extractLsb]
  interval_cases i <;> simp

/-- The eight bytes of 64 bits, joined. -/
theorem join64_split64 (v : BitVec 64) :
    join64 (v.extractLsb 63 56) (v.extractLsb 55 48) (v.extractLsb 47 40) (v.extractLsb 39 32)
      (v.extractLsb 31 24) (v.extractLsb 23 16) (v.extractLsb 15 8) (v.extractLsb 7 0) = v := by
  apply BitVec.eq_of_getLsbD_eq
  intro i hi
  simp only [join64, BitVec.getLsbD_append, BitVec.getLsbD_extractLsb]
  interval_cases i <;> simp

theorem split16_append (a b : Byte) : split16 (a ++ b) = [a, b] := by
  simp only [split16, List.cons.injEq, and_true]
  constructor <;>
    (apply BitVec.eq_of_getLsbD_eq
     intro i hi
     simp only [BitVec.getLsbD_append, BitVec.getLsbD_extractLsb]
     interval_cases i <;> simp)

theorem split64_join64 (e0 e1 e2 e3 e4 e5 e6 e7 : Byte) :
    split64 (join64 e0 e1 e2 e3 e4 e5 e6 e7) = [e0, e1, e2, e3, e4, e5, e6, e7] := by
  simp only [split64, join64, List.cons.injEq, and_true]
  refine ⟨?_, ?_, ?_, ?_, ?_, ?_, ?_, ?_⟩ <;>
    (apply BitVec.eq_of_getLsbD_eq
     intro i hi
     simp only [BitVec.getLsbD_append, BitVec.getLsbD_extractLsb]
     interval_cases i <;> simp)

/-- 63 bits widened to 64 have a clear top bit, and lose nothing. -/
theorem top_bit_of_63 (n : BitVec 63) : ((n.setWidth 64).extractLsb 63 56).getLsbD 7 = false := by
  simp

theorem setWidth_63_64 (n : BitVec 63) : (n.setWidth 64).setWidth 63 = n := by
  apply BitVec.eq_of_toNat_eq; simp

/-- Eight bytes with a clear top bit survive the cut to 63 bits. -/
theorem join64_low63 (e0 e1 e2 e3 e4 e5 e6 e7 : Byte) (h : e0.getLsbD 7 = false) :
    ((join64 e0 e1 e2 e3 e4 e5 e6 e7).setWidth 63).setWidth 64 = join64 e0 e1 e2 e3 e4 e5 e6 e7 := by
  apply BitVec.eq_of_getLsbD_eq
  intro i hi
  simp only [BitVec.getLsbD_setWidth]
  by_cases h' : i < 63
  · simp [h', hi]
  · have : i = 63 := by omega
    subst this
    simp only [join64, BitVec.getLsbD_append]
    simpa using h

/-- Byte `j` of a 64-bit length, the most significant first (R40). -/
theorem split64_byte (c : BitVec 64) :
    ∀ j < 8, ((split64 c).getD j 0).toNat = c.toNat / 2 ^ (56 - 8 * j) % 256 := by
  intro j hj
  have := c.isLt
  interval_cases j <;>
    simp only [split64, List.getD_cons_succ, List.getD_cons_zero, BitVec.extractLsb_toNat,
      Nat.shiftRight_eq_div_pow]

/-- A 64-bit operand that fits 63 bits is read back. -/
theorem decodeOperand64_split64 (f : BitVec 64 → Instr) (v : BitVec 64) (h : v.toNat < 2 ^ 63) :
    decodeOperand64 f (split64 v) = .ok (f v) := by
  simp only [decodeOperand64, split64, join64_split64, h, if_true]

end Sys2Proof
end

