-- ==== Sys2Proof/Laws/PerInstr.lean ====
section
/-! SUPPORT. Per instruction: the word of a well-formed operation has the fixed bits that its row of spec/opcode_table.json
gives it (30_encoding R78, R81). -/

namespace Sys2Proof.Laws.FixedBits

/-- The first two bytes of a word, as the 16-bit `W` of R78 (0 for a shorter word). -/
def firstW : List Byte → BitVec 16
  | b0 :: b1 :: _ => b0 ++ b1
  | _ => 0

/-- The fixed bits of a row, on the word's bytes: for a frame format `match` and `mask` over `W` with the row's further
condition; for HP.BYTE0, HP.BYTE1 and HP.EXT64 those of their patterns; a row without fixed bits says how many bytes there
are. -/
def holds : OpWord → Prop
  | .request r => r.buflen.toNat < 2 ^ 63
  | .checkRequest r => r.buflen.toNat < 2 ^ 63
  | .bits .frameL7 bs => bs.length = 2 ∧ firstW bs &&& 0x7080#16 = 0x0080#16 ∧ (bs.getD 1 0 &&& 0x7F#8).toNat ≤ 125
  | .bits .frameL16 bs => bs.length = 4 ∧ firstW bs &&& 0x70FF#16 = 0x00FE#16
  | .bits .frameL64 bs => bs.length = 10 ∧ firstW bs &&& 0x70FF#16 = 0x00FF#16 ∧ (bs.getD 2 0).getLsbD 7 = false
  | .bits .hpLensel bs => bs.length = 8
  | .bits .hpByte0 bs => bs.length = 1 ∧ bs.getD 0 0 &&& 0x70#8 = 0x00#8
  | .bits .hpByte1 bs => bs.length = 1 ∧ bs.getD 0 0 &&& 0x80#8 = 0x80#8
  | .bits .hpExt16 bs => bs.length = 2
  | .bits .hpExt64 bs => bs.length = 8 ∧ (bs.getD 0 0).getLsbD 7 = false
  | .bits .mkKeygen bs => bs.length = 0
  | .bits .mkKeywr bs => bs.length = 4
  | .bits .mkXor bs => bs.length = 8

/-- The word of a well-formed operation has its row's fixed bits. -/
def Statement (i : Instr) : Prop := WellFormed i → holds (encode i)

theorem and_append (a b c d : Byte) : (a ++ b) &&& (c ++ d) = (a &&& c) ++ (b &&& d) := by
  apply BitVec.eq_of_getLsbD_eq
  intro i hi
  simp only [BitVec.getLsbD_and, BitVec.getLsbD_append]
  split <;> simp

theorem byte0_and_70 : ∀ fin opc, byte0 fin opc &&& 0x70#8 = 0x00#8 := by decide
theorem byte1_and_80 : ∀ l7, byte1 l7 &&& 0x80#8 = 0x80#8 := by decide
theorem byte1_and_7F : ∀ l7, (byte1 l7 &&& 0x7F#8).toNat = l7.toNat := by decide

theorem encode (r : Request) : Statement (.encode r) := fun h => by
  simpa [WellFormed, Instr.wf, Request.legal, holds, Sys2Proof.encode] using h

theorem frameL7 (fin : Bool) (opc : BitVec 4) (len : BitVec 7) : Statement (.frameL7 fin opc len) := fun h => by
  refine ⟨rfl, ?_, ?_⟩
  · show (byte0 fin opc ++ byte1 len) &&& (0x70#8 ++ 0x80#8) = 0x0080#16
    rw [and_append, byte0_and_70, byte1_and_80]; rfl
  · show (byte1 len &&& 0x7F#8).toNat ≤ 125
    rw [byte1_and_7F]
    simpa [WellFormed, Instr.wf] using h

theorem frameL16 (fin : Bool) (opc : BitVec 4) (n : BitVec 16) : Statement (.frameL16 fin opc n) := fun _ => by
  refine ⟨rfl, ?_⟩
  show (byte0 fin opc ++ byte1 126#7) &&& (0x70#8 ++ 0xFF#8) = 0x00FE#16
  rw [and_append, byte0_and_70]; decide

theorem frameL64 (fin : Bool) (opc : BitVec 4) (n : BitVec 63) : Statement (.frameL64 fin opc n) := fun _ => by
  refine ⟨rfl, ?_, top_bit_of_63 n⟩
  show (byte0 fin opc ++ byte1 127#7) &&& (0x70#8 ++ 0xFF#8) = 0x00FF#16
  rw [and_append, byte0_and_70]; decide

theorem feCheck (r : Request) : Statement (.feCheck r) := fun h => by
  simpa [WellFormed, Instr.wf, Request.legal, holds, Sys2Proof.encode] using h

theorem hpLensel (cnt : BitVec 64) : Statement (.hpLensel cnt) := fun _ => rfl

theorem hpByte0 (fin : Bool) (opc : BitVec 4) : Statement (.hpByte0 fin opc) := fun _ => ⟨rfl, byte0_and_70 fin opc⟩

theorem hpByte1 (l7 : BitVec 7) : Statement (.hpByte1 l7) := fun _ => ⟨rfl, byte1_and_80 l7⟩

theorem hpExt16 (n : BitVec 16) : Statement (.hpExt16 n) := fun _ => rfl

theorem hpExt64 (n : BitVec 63) : Statement (.hpExt64 n) := fun _ => ⟨rfl, top_bit_of_63 n⟩

theorem mkKeygen : Statement .mkKeygen := fun _ => rfl

theorem mkKeywr (k : Key) : Statement (.mkKeywr k) := fun _ => rfl

theorem mkXor (idx : BitVec 64) : Statement (.mkXor idx) := fun _ => rfl

end Sys2Proof.Laws.FixedBits
end

