-- ==== Sys2Proof/Tests/Slice0.lean ====
section
/-! SUPPORT. Tests of the model against the spec's own vectors (95_test_vectors) and encodings (30_encoding), the smoke test of
WellFormed, and a witness for the hypotheses of each obligation. -/

namespace Sys2Proof.Tests

open Sys2Proof.Machine

/-! WellFormed refuses an ill-formed term of each check. -/

theorem test_wf_refuses_long_buffer :
    (Instr.encode { Request.zero with buflen := BitVec.ofNat 64 (2 ^ 63) }).wf = false := by decide
theorem test_wf_refuses_long_buffer_check :
    (Instr.feCheck { Request.zero with buflen := BitVec.ofNat 64 (2 ^ 63) }).wf = false := by decide
theorem test_wf_refuses_sentinel_length : (Instr.frameL7 true 1 126).wf = false := by decide
theorem test_wf_refuses_count_with_top_bit : (Instr.hpLensel (BitVec.ofNat 64 (2 ^ 63))).wf = false := by decide
theorem test_wf_refuses_index_with_top_bit : (Instr.mkXor (BitVec.ofNat 64 (2 ^ 63))).wf = false := by decide

/-! Decoding words written out from the encodings of 30_encoding. -/

/-- R26: the record of program P1, field by field. -/
theorem test_decode_request :
    decode (.request ⟨0, 0x01, true, 0, 5, 5, 0⟩) = .ok (.encode ⟨0, 0x01, true, 0, 5, 5, 0⟩) := by decide
theorem test_decode_check :
    decode (.checkRequest ⟨0, 0x10, true, 0, 5, 5, 0⟩) = .ok (.feCheck ⟨0, 0x10, true, 0, 5, 5, 0⟩) := by decide
/-- R63: `f000oooo 1lllllll` with f = 1, oooo = 0001, lllllll = 0000101. -/
theorem test_decode_frameL7 :
    decode (.bits .frameL7 [0b10000001#8, 0b10000101#8]) = .ok (.frameL7 true 0b0001#4 0b0000101#7) := by decide
/-- R64: `f000oooo 11111110` and 16 bits n; 300 is 01 2C. -/
theorem test_decode_frameL16 :
    decode (.bits .frameL16 [0b00000010#8, 0b11111110#8, 0b00000001#8, 0b00101100#8])
      = .ok (.frameL16 false 0b0010#4 300#16) := by decide
/-- R65: `f000oooo 11111111` and 64 bits, first the most significant; 10000000 is 98 96 80. -/
theorem test_decode_frameL64 :
    decode (.bits .frameL64 [0b10000010#8, 0b11111111#8, 0, 0, 0, 0, 0, 0x98, 0x96, 0x80])
      = .ok (.frameL64 true 0b0010#4 10000000#63) := by decide
/-- R72, R76: a set RSV bit, a clear MASK bit and a set top bit are no frame of the block. -/
theorem test_decode_rejects :
    decode (.bits .frameL7 [0b11000001#8, 0b10000101#8]) = .error .reservedBits ∧
    decode (.bits .frameL7 [0b10000001#8, 0b00000101#8]) = .error .unmasked ∧
    decode (.bits .frameL7 [0b10000001#8, 0b11111110#8, 0, 126]) = .error .otherFormat ∧
    decode (.bits .frameL64 [0b10000010#8, 0b11111111#8, 0x80, 0, 0, 0, 0, 1, 0, 0]) = .error .lengthTopBit := by
  decide
/-- The operand of HP.LENSEL, 64 bits with the most significant first. -/
theorem test_decode_hpLensel :
    decode (.bits .hpLensel [0, 0, 0, 0, 0, 0, 0x01, 0x2C]) = .ok (.hpLensel 300#64) := by decide
/-- R106: `f000oooo`. -/
theorem test_decode_hpByte0 : decode (.bits .hpByte0 [0b10001111#8]) = .ok (.hpByte0 true 0b1111#4) := by decide
/-- R107: `1lllllll`. -/
theorem test_decode_hpByte1 : decode (.bits .hpByte1 [0b11111110#8]) = .ok (.hpByte1 0b1111110#7) := by decide
/-- R108: 16 bits n, the most significant first. -/
theorem test_decode_hpExt16 : decode (.bits .hpExt16 [0x01#8, 0x2C#8]) = .ok (.hpExt16 300#16) := by decide
/-- R109: a 0 and 63 bits n. -/
theorem test_decode_hpExt64 :
    decode (.bits .hpExt64 [0, 0, 0, 1, 0, 0, 0, 0]) = .ok (.hpExt64 4294967296#63) := by decide
theorem test_decode_mkKeygen : decode (.bits .mkKeygen []) = .ok .mkKeygen := by decide
/-- R121: `K[0]` first. -/
theorem test_decode_mkKeywr :
    decode (.bits .mkKeywr [0x37, 0xFA, 0x21, 0x3D]) = .ok (.mkKeywr ⟨0x37, 0xFA, 0x21, 0x3D⟩) := by decide
theorem test_decode_mkXor :
    decode (.bits .mkXor [0, 0, 0, 0, 0, 0, 0, 4]) = .ok (.mkXor 4#64) := by decide

/-- The words of the opcode table's fixed bits. -/
theorem test_table_words :
    decodeTableWord 0 0 = some (.encode Request.zero) ∧
    decodeTableWord 16 0x0080 = some (.frameL7 false 0 0) ∧
    decodeTableWord 16 0x8185 = some (.frameL7 true 1 5) ∧
    decodeTableWord 16 0x00FE = some (.frameL16 false 0 0) ∧
    decodeTableWord 16 0x00FF = some (.frameL64 false 0 0) ∧
    decodeTableWord 16 0x012C = some (.hpExt16 300) ∧
    decodeTableWord 8 0x0F = some (.hpByte0 false 15) ∧
    decodeTableWord 8 0xFD = some (.hpByte1 125) ∧
    decodeTableWord 32 0x37FA213D = some (.mkKeywr ⟨0x37, 0xFA, 0x21, 0x3D⟩) ∧
    decodeTableWord 64 0x989680 = some (.hpExt64 10000000) := by decide

/-! One step each, against the vectors of 95_test_vectors and the examples of 40 to 42. -/

def hello : List Byte := [0x48, 0x65, 0x6C, 0x6C, 0x6F]
def key1 : Key := ⟨0x37, 0xFA, 0x21, 0x3D⟩

/-- A machine just reset, with one buffer and the next draw pinned. -/
def ready (bytes : List Byte) (k : Key) : State :=
  { State.reset with src := [Space.ofBytes bytes], entropy := { State.reset.entropy with pinned := [k] } }

/-- A request on that buffer. -/
def ask (op : BitVec 8) (off cnt len : BitVec 64) (fin : Bool) : Request := ⟨0, op, fin, off, cnt, len, 0⟩

/-- The next state, if there is one. -/
def nextOf (o : Result) : Option State :=
  match o with
  | .next s => some s
  | .fault _ => none
  | .refused _ => none

/-- What an operation leaves as response. -/
def answerOf (i : Instr) (s : State) : Option Response := (nextOf (exec i s)).bind fun t => t.pending.map Delivered.resp

/-- The bytes of OUT after an operation. -/
def outOf (i : Instr) (s : State) : Option (List Byte) := (nextOf (exec i s)).bind fun t => t.out.map Space.bytes

/-- A state inside a command: OUT of `n` zero bytes, the header shape of `SEL = sel` and `H = h`. -/
def inside (n : Nat) (sel : BitVec 2) (h : BitVec 4) : State :=
  { ready hello key1 with
    cmd := some (ask 1 0 5 5 true), out := some ⟨n, []⟩, regs := { Regs.idle with sel := sel, h := h, cnt := 5 } }

/-- V1, V9 and V4. -/
theorem test_encode_frames :
    answerOf (.encode (ask 1 0 5 5 true)) (ready hello key1) =
      some ⟨0, 11, [0x81, 0x85, 0x37, 0xFA, 0x21, 0x3D, 0x7F, 0x9F, 0x4D, 0x51, 0x58]⟩ ∧
    answerOf (.encode (ask 2 3 6 16 false))
        (ready [0, 1, 2, 3, 4, 5, 6, 7, 8, 9, 10, 11, 12, 13, 14, 15] ⟨0x10, 0x20, 0x30, 0x40⟩) =
      some ⟨0, 12, [0x02, 0x86, 0x10, 0x20, 0x30, 0x40, 0x13, 0x24, 0x35, 0x46, 0x17, 0x28]⟩ ∧
    answerOf (.encode (ask 10 5 0 5 true)) (ready hello ⟨1, 2, 3, 4⟩) = some ⟨0, 6, [0x8A, 0x80, 1, 2, 3, 4]⟩ := by
  decide

/-- E3, E12, E5, E13, E6, E8, E10. -/
theorem test_encode_errors :
    answerOf (.encode (ask 17 0 5 5 true)) (ready hello key1) = some ⟨2, 0, []⟩ ∧
    answerOf (.encode (ask 16 9 (BitVec.ofNat 64 (2 ^ 63)) 5 true)) (ready hello key1) = some ⟨2, 0, []⟩ ∧
    answerOf (.encode (ask 1 0 (BitVec.ofNat 64 (2 ^ 64 - 1)) 5 true)) (ready hello key1) = some ⟨3, 0, []⟩ ∧
    answerOf (.encode (ask 3 9 (BitVec.ofNat 64 (2 ^ 63)) 5 true)) (ready hello key1) = some ⟨3, 0, []⟩ ∧
    answerOf (.encode (ask 1 0 6 5 true)) (ready hello key1) = some ⟨1, 0, []⟩ ∧
    answerOf (.encode (ask 1 6 0 5 true)) (ready hello key1) = some ⟨1, 0, []⟩ ∧
    answerOf (.encode (ask 1 (BitVec.ofNat 64 (2 ^ 64 - 1)) 2 5 true)) (ready hello key1) = some ⟨1, 0, []⟩ := by
  decide

/-- V1 as a program, and V15: a fifth operand left out means 1. -/
theorem test_script :
    (performLines 0 [.buf hello, .key key1, .encode 0 1 0 5 (some true)] State.reset).map
        (fun s => s.delivered.map Delivered.resp) =
      some [⟨0, 11, [0x81, 0x85, 0x37, 0xFA, 0x21, 0x3D, 0x7F, 0x9F, 0x4D, 0x51, 0x58]⟩] ∧
    (performLines 0 [.buf hello, .key ⟨9, 9, 9, 9⟩, .encode 0 1 5 0 none] State.reset).map
        (fun s => s.delivered.map Delivered.resp) = some [⟨0, 6, [0x81, 0x80, 9, 9, 9, 9]⟩] := by decide

/-- The example of R63 and V1: format L7 in a command on the first three bytes; V1's header with length 3. -/
theorem test_frameL7 :
    outOf (.frameL7 true 1 3) (inside 0 0 0) = some [0x81, 0x83, 0x37, 0xFA, 0x21, 0x3D, 0x7F, 0x9F, 0x4D] := by decide

/-- S8, R69: 125 is not sent in format L16, nor 65535 in format L64. -/
theorem test_frameL16_boundary : nextOf (exec (.frameL16 true 2 125) (inside 0 0 0)) = some (inside 0 0 0) := by decide
theorem test_frameL64_boundary : nextOf (exec (.frameL64 true 2 65535) (inside 0 0 0)) = some (inside 0 0 0) := by decide

/-- R86: the range that ends at the buffer's end passes and is latched; E8 is refused with code 1. -/
theorem test_feCheck :
    (nextOf (exec (.feCheck (ask 15 2 3 5 true)) (ready hello key1))).map
      (fun t => (t.regs.opc, t.regs.finr, t.regs.cnt, t.regs.off, t.pending)) = some (15, true, 3, 2, none) ∧
    answerOf (.feCheck (ask 1 6 0 5 true)) (ready hello key1) = some ⟨1, 0, []⟩ := by decide

/-- HP-H: `SEL`, `H` and `L7` at the boundaries, and at 2^32, where the low 32 bits are 0. -/
theorem test_hpLensel :
    [0, 125, 126, 127, 65535, 65536, 4294967296].map (fun c => (nextOf (exec (.hpLensel c) State.reset)).map
      (fun t => (t.regs.sel.toNat, t.regs.h.toNat, t.regs.l7.toNat))) =
    [some (0, 2, 0), some (0, 2, 125), some (1, 4, 126), some (1, 4, 126), some (1, 4, 126), some (2, 10, 127),
      some (2, 10, 127)] := by decide

/-- HP-B0 at its corners. -/
theorem test_hpByte0 : outOf (.hpByte0 true 15) (inside 1 0 2) = some [0x8F] ∧
    outOf (.hpByte0 false 9) (inside 1 0 2) = some [0x09] := by decide

/-- R107: 0, 125 and 127. -/
theorem test_hpByte1 : outOf (.hpByte1 0) (inside 2 0 2) = some [0, 0x80] ∧
    outOf (.hpByte1 125) (inside 2 0 2) = some [0, 0xFD] ∧ outOf (.hpByte1 127) (inside 2 0 2) = some [0, 0xFF] := by decide

/-- R108: 300, and 256; not performed when `SEL = 0`. -/
theorem test_hpExt16 : outOf (.hpExt16 300) (inside 4 1 4) = some [0, 0, 0x01, 0x2C] ∧
    outOf (.hpExt16 256) (inside 4 1 4) = some [0, 0, 0x01, 0x00] ∧
    outOf (.hpExt16 300) (inside 4 0 4) = some [0, 0, 0, 0] := by decide

/-- R109: 2^32, and 10000000. -/
theorem test_hpExt64 :
    outOf (.hpExt64 4294967296) (inside 10 2 10) = some [0, 0, 0, 0, 0, 1, 0, 0, 0, 0] ∧
    outOf (.hpExt64 10000000) (inside 10 2 10) = some [0, 0, 0, 0, 0, 0, 0, 0x98, 0x96, 0x80] := by decide

/-- R120: the pinned draw is the key. -/
theorem test_mkKeygen : (nextOf (exec .mkKeygen (ready hello key1))).map (fun t => (t.regs.key, t.entropy.pinned)) =
    some (⟨0x37, 0xFA, 0x21, 0x3D⟩, []) := by decide

/-- R121: `H = 2` gives `F[2..5]`. -/
theorem test_mkKeywr : outOf (.mkKeywr key1) (inside 7 0 2) = some [0, 0, 0x37, 0xFA, 0x21, 0x3D, 0] := by decide

/-- R122: `b = 48, I = 0` gives 7F and `b = 6F, I = 4` gives 58, both with `K[0] = 37`; and with `OFF = 3` the first payload byte
6C is masked with `K[0]`: 6C XOR 37 = 5B. -/
theorem test_mkXor :
    (outOf (.mkXor 0) { inside 11 0 2 with regs := { (inside 11 0 2).regs with key := key1 } }).map (fun f => f.getD 6 0) =
      some 0x7F ∧
    (outOf (.mkXor 4) { inside 11 0 2 with regs := { (inside 11 0 2).regs with key := key1 } }).map (fun f => f.getD 10 0) =
      some 0x58 ∧
    (outOf (.mkXor 0) { inside 11 0 2 with regs := { (inside 11 0 2).regs with key := key1, off := 3 } }).map
      (fun f => f.getD 6 0) = some 0x5B := by decide

/-- MK1, MK2, MK3, MK7. -/
theorem test_masked :
    masked key1 hello = [0x7F, 0x9F, 0x4D, 0x51, 0x58] ∧
    masked ⟨0xA1, 0xB2, 0xC3, 0xD4⟩ [0, 0, 0, 0, 0, 0, 0] = [0xA1, 0xB2, 0xC3, 0xD4, 0xA1, 0xB2, 0xC3] ∧
    masked ⟨0xA1, 0xB2, 0xC3, 0xD4⟩ (List.replicate 7 0xFF) = [0x5E, 0x4D, 0x3C, 0x2B, 0x5E, 0x4D, 0x3C] ∧
    masked ⟨1, 2, 3, 4⟩ [0x20, 0x21, 0x22, 0x23, 0x24, 0x25, 0x26, 0x27, 0x28, 0x29] =
      [0x21, 0x23, 0x21, 0x27, 0x25, 0x27, 0x25, 0x23, 0x29, 0x2B] := by decide

/-- HP-H: whole headers. -/
theorem test_header :
    header true 2 125 = [0x82, 0xFD] ∧ header true 2 126 = [0x82, 0xFE, 0x00, 0x7E] ∧
    header true 2 65535 = [0x82, 0xFE, 0xFF, 0xFF] ∧
    header true 2 65536 = [0x82, 0xFF, 0, 0, 0, 0, 0, 1, 0, 0] ∧
    header true 2 9007199254740992 = [0x82, 0xFF, 0x00, 0x20, 0, 0, 0, 0, 0, 0] := by decide

/-- Every row of the table runs as the first operation after reset. -/
theorem test_first_operation :
    [(0, 0), (16, 0x0080), (16, 0x8185), (16, 0x00FE), (16, 0x00FF), (8, 0x00), (8, 0x80), (16, 0x012C), (64, 0x989680),
      (32, 0x37FA213D)].map (fun p => (nextOf (step (State.reset.withFetchWord p.1 p.2))).isSome) =
    List.replicate 10 true := by decide

/-- Two hosts' requests wait, host 0 with E8 first; the service choice and the oldest one's allowance are given. -/
def twoWait (choice allowance : Nat) : State :=
  { ready hello key1 with
    cfg := ⟨⟨2 ^ 63 - 1, by decide⟩, 2⟩
    inbox := [.request (ask 1 6 0 5 true), .request { ask 16 0 0 5 true with host := 1 }]
    arbiter := ⟨[choice], 0, some allowance⟩ }

/-- R148: of two waiting requests either may be served, but the oldest is passed over no more than its allowance says. -/
theorem test_service_choice :
    [(0, 5), (1, 5), (1, 0)].map (fun p => (nextOf (step (twoWait p.1 p.2))).map
      (fun t => t.delivered.map (fun d => (d.req.host, d.resp.status.toNat)))) =
    [some [(0, 1)], some [(1, 2)], some [(0, 1)]] := by decide

/-- R79: a line of host 2 completes although a request of host 1 waits: with room for one (the line waits for room), and with room
for two (the other is served first). -/
theorem test_line_completes :
    [1, 2].map (fun n => (performLine 2 (.encode 0 1 0 5 none) { ready hello key1 with
      cfg := ⟨⟨2 ^ 63 - 1, by decide⟩, n⟩
      inbox := [.request { ask 16 0 0 5 true with host := 1 }]
      arbiter := ⟨[0], 0, some 5⟩ }).map
      (fun t => (t.inbox.length, t.delivered.map (fun d => (d.req.host, d.resp.status.toNat, d.resp.len.toNat))))) =
    List.replicate 2 (some (0, [(1, 2, 0), (2, 0, 11)])) := by decide

/-- R166: with bytes 1 and 2 of the buffer requested, a store to 1 or 2 is refused; one to 0 or 3 is made. -/
theorem test_hostStore :
    [0, 1, 2, 3].map (fun a => (nextOf (hostStore 0 a 9 { ready hello key1 with
      inbox := [.request (ask 1 1 2 5 true)] })).map (fun t => (t.src.map Space.bytes))) =
    [some [[9, 0x65, 0x6C, 0x6C, 0x6F]], none, none, some [[0x48, 0x65, 0x6C, 9, 0x6F]]] := by decide

/-! ## Witnesses: for each obligation with hypotheses, operands and states that meet them, every clause at its boundaries. -/

/-- ENCODE answers with a frame; used by the witnesses below only. -/
theorem encode_completes (s : State) (r : Request) (ht : TrueLength s r) (hp : Passes s r)
    (ha : s.entropy.answering = true) :
    ∃ t d, exec (.encode r) s = .next t ∧ t.pending = some d ∧ d.resp.status = 0 := by
  rcases checkThen_cases r s (fun s => andThen (execHpLensel s.regs.cnt s) fun s => andThen (buildFrame s) fun s =>
      .next (respondOk r s)) with ⟨h, _⟩ | ⟨e, _, h, _⟩ | ⟨_, _, e⟩
  · rw [(lengthTrue_iff s r).2 ht] at h; cases h
  · have := hp.1; have := hp.2.1; have := hp.2.2
    rw [checkRequest_eq, if_neg (by omega), if_neg (by omega), if_neg (by omega)] at h; cases h
  · obtain ⟨i, p, f, e2, -, -, -⟩ := buildFrame_spec
      { latchRequest r s with regs := { (latchRequest r s).regs with
          sel := (shape r.count).sel, h := (shape r.count).h, l7 := (shape r.count).l7 } }
      (Nat.lt_of_le_of_lt hp.2.1 s.cfg.maxCount.isLt) ⟨rfl, rfl, rfl⟩ ha
      (.inr ⟨r, rfl, hp.2.2, by have := ht.1; have := hp.2.2; show r.offset.toNat + r.count.toNat ≤ (bufferOf s r).len; omega⟩)
    unfold execHpLensel at e
    rw [andThen_next] at e
    have e3 := e.trans (congrArg (fun o => andThen o fun s => .next (respondOk r s)) e2)
    exact ⟨_, _, e3, rfl, rfl⟩

/-- A buffer of `n` zero bytes, alone in the hosts' memory. -/
def zeros (n : Nat) : State := { State.reset with src := [⟨n, []⟩] }

/-- A machine with MAX_COUNT 1000 and a buffer of 2000 bytes (E18, E19). -/
def small : State := { zeros 2000 with cfg := ⟨1000, 1⟩ }

theorem test_witness_DecodeOfEncode :
    WellFormed (.encode (ask 0 0 0 (BitVec.ofNat 64 (2 ^ 63 - 1)) true)) ∧ WellFormed (.frameL7 true 1 125) ∧
    WellFormed (.hpLensel (BitVec.ofNat 64 (2 ^ 63 - 1))) ∧ WellFormed (.mkXor (BitVec.ofNat 64 (2 ^ 63 - 1))) ∧
    WellFormed (.frameL64 true 15 (BitVec.ofNat 63 (2 ^ 63 - 1))) := by decide

theorem test_witness_EncodeOfDecode :
    decode (.bits .frameL7 [0x81, 0xFD]) = .ok (.frameL7 true 1 125) ∧
    decode (.bits .hpExt64 [0x7F, 0xFF, 0xFF, 0xFF, 0xFF, 0xFF, 0xFF, 0xFF]) =
      .ok (.hpExt64 (BitVec.ofNat 63 (2 ^ 63 - 1))) := by decide

theorem test_witness_FrameRowsAreDisjoint :
    recognise [0x82, 0xFD] = .ok (.frameL7 true 2 125, []) ∧
    recognise [0x82, 0xFE, 0, 0x7E, 9] = .ok (.frameL16 true 2 126, [9]) ∧
    recognise [0x82, 0xFF, 0x7F, 0xFF, 0xFF, 0xFF, 0xFF, 0xFF, 0xFF, 0xFF, 9] =
      .ok (.frameL64 true 2 (BitVec.ofNat 63 (2 ^ 63 - 1)), [9]) := by decide

theorem test_witness_HeaderIsReadBack :
    ([0, 125, 126, 65535, 65536, BitVec.ofNat 64 (2 ^ 63 - 1)] : List (BitVec 64)).all
      (fun c => decide (c.toNat < 2 ^ 63)) = true := by decide

theorem test_witness_IdleStepChangesNothing : State.reset.inbox = [] := by decide

def waiting1 : State := { ready hello key1 with inbox := [.request (ask 1 0 5 5 true)] }
def waiting2 : State :=
  { ready hello key1 with
    cfg := ⟨⟨2 ^ 63 - 1, by decide⟩, 3⟩
    inbox := [.request (ask 1 0 5 5 true), .request { ask 16 0 0 5 true with host := 1 }] }

theorem test_witness_StepRunsTheDecodedOperation :
    takeWord waiting1 = some (.request (ask 1 0 5 5 true), { waiting1 with inbox := [], arbiter := waiting1.arbiter.cleared }) ∧
    decode (.request (ask 1 0 5 5 true)) = .ok (.encode (ask 1 0 5 5 true)) ∧
    takeWord { waiting1 with inbox := [.bits .hpByte1 [0]] } =
      some (.bits .hpByte1 [0], { waiting1 with inbox := [], arbiter := waiting1.arbiter.cleared }) ∧
    decode (.bits .hpByte1 [0]) = .error .unmasked ∧
    waiting1.inbox = [.request (ask 1 0 5 5 true)] := by decide

theorem test_witness_AnyWaitingRequestMayBeServed :
    waiting1.inbox ≠ [] ∧ waiting2.inbox ≠ [] ∧ 0 < waiting1.inbox.length ∧ 1 < waiting2.inbox.length := by decide

/-- Room for the last one, and no room. -/
theorem test_witness_PresentedRequestWaits :
    waiting2.inbox.length + 1 = waiting2.cfg.nReq ∧ waiting1.cfg.nReq = waiting1.inbox.length := by decide

/-- V1; the highest opcode with the empty range at the end of the buffer; a count equal to MAX_COUNT (E18). -/
theorem test_witness_EncodeRespondsWithTheFrame :
    (TrueLength (ready hello key1) (ask 1 0 5 5 true) ∧ Passes (ready hello key1) (ask 1 0 5 5 true) ∧
      (ready hello key1).entropy.answering = true) ∧
    (TrueLength (ready hello key1) (ask 15 5 0 5 false) ∧ Passes (ready hello key1) (ask 15 5 0 5 false)) ∧
    (TrueLength small (ask 1 1000 1000 2000 true) ∧ Passes small (ask 1 1000 1000 2000 true) ∧
      small.entropy.answering = true) := by decide

/-- E1, E12; E4, E19; E6, E8, E10, each with its true length. -/
theorem test_witness_EncodeReportsTheFirstError :
    (TrueLength (ready hello key1) (ask 16 0 5 5 true) ∧ 15 < (ask 16 0 5 5 true).opcode.toNat) ∧
    (TrueLength (zeros (2 ^ 63 - 1)) (ask 1 0 (BitVec.ofNat 64 (2 ^ 63)) (BitVec.ofNat 64 (2 ^ 63 - 1)) true) ∧
      (zeros (2 ^ 63 - 1)).cfg.maxCount.val < (BitVec.ofNat 64 (2 ^ 63)).toNat) ∧
    (TrueLength small (ask 15 0 1001 2000 true) ∧ (ask 15 0 1001 2000 true).opcode.toNat ≤ 15 ∧
      small.cfg.maxCount.val < (1001#64).toNat) ∧
    (TrueLength (ready hello key1) (ask 15 0 6 5 true) ∧ (ask 15 0 6 5 true).opcode.toNat ≤ 15 ∧
      (6#64).toNat ≤ (ready hello key1).cfg.maxCount.val ∧ (5#64).toNat < (0#64).toNat + (6#64).toNat) ∧
    (TrueLength (ready hello key1) (ask 1 6 0 5 true) ∧ (5#64).toNat < (6#64).toNat + (0#64).toNat) ∧
    (TrueLength (ready hello key1) (ask 1 (BitVec.ofNat 64 (2 ^ 64 - 1)) 2 5 true) ∧
      (5#64).toNat < (BitVec.ofNat 64 (2 ^ 64 - 1)).toNat + (2#64).toNat) := by decide

/-- A length one too large, and a true one above 2^63 - 1. -/
theorem test_witness_FalseLengthIsRefused :
    ¬ TrueLength (ready hello key1) (ask 1 0 5 6 true) ∧
    ¬ TrueLength (zeros (2 ^ 63)) (ask 1 0 5 (BitVec.ofNat 64 (2 ^ 63)) true) := by decide

theorem test_witness_EncodeHasNoStepWithoutAnswer :
    TrueLength (entropyAnswers false (ready hello key1)) (ask 1 0 5 5 true) ∧
    (entropyAnswers false (ready hello key1)).entropy.answering = false ∧
    Passes (entropyAnswers false (ready hello key1)) (ask 1 0 5 5 true) ∧
    TrueLength (entropyAnswers false (ready hello key1)) (ask 1 0 6 5 true) ∧
    ¬ Passes (entropyAnswers false (ready hello key1)) (ask 1 0 6 5 true) := by decide

/-- The four clauses: E1, E19, E6, and the range that ends at the buffer's end. -/
theorem test_witness_CheckLatchesOrRaises :
    (TrueLength (ready hello key1) (ask 16 0 5 5 true) ∧ 15 < (ask 16 0 5 5 true).opcode.toNat) ∧
    (TrueLength small (ask 15 0 1001 2000 true) ∧ (ask 15 0 1001 2000 true).opcode.toNat ≤ 15 ∧
      small.cfg.maxCount.val < (1001#64).toNat) ∧
    (TrueLength (ready hello key1) (ask 15 0 6 5 true) ∧ (ask 15 0 6 5 true).opcode.toNat ≤ 15 ∧
      (6#64).toNat ≤ (ready hello key1).cfg.maxCount.val ∧ (5#64).toNat < (0#64).toNat + (6#64).toNat) ∧
    (TrueLength (ready hello key1) (ask 15 2 3 5 true) ∧ (ask 15 2 3 5 true).opcode.toNat ≤ 15 ∧
      (3#64).toNat ≤ (ready hello key1).cfg.maxCount.val ∧ (2#64).toNat + (3#64).toNat ≤ (5#64).toNat) := by decide

theorem test_witness_RetryRepeatsTheError :
    ∃ t d, exec (.encode (ask 16 0 5 5 true)) (ready hello key1) = .next t ∧ t.pending = some d ∧ d.resp.status ≠ 0 :=
  ⟨_, _, rfl, rfl, by decide⟩

theorem test_witness_OneResponseForEachRequest :
    waiting1.inbox = [.request (ask 1 0 5 5 true)] ∧ waiting1.pending = none ∧
    TrueLength waiting1 (ask 1 0 5 5 true) ∧ waiting1.entropy.answering = true := by decide

theorem test_witness_EveryWaitingRequestIsAnswered :
    Idle waiting2 ∧ waiting2.entropy.answering = true ∧ ∀ w ∈ waiting2.inbox, ∃ r, w = .request r ∧ TrueLength waiting2 r := by
  refine ⟨by decide, by decide, ?_⟩
  intro w hw
  simp only [waiting2, List.mem_cons, List.not_mem_nil, or_false] at hw
  rcases hw with rfl | rfl
  · exact ⟨_, rfl, by decide⟩
  · exact ⟨_, rfl, by decide⟩

/-- For FrameLengthLaw, FinOpcodeAndMaskLaw, RoundTripLaw, LayoutLaw, EncodeChoosesTheFormat and NeverProducedPatterns: a frame
in each format, at the boundary counts 0, 125, 126, 65535 and 65536. -/
theorem test_witness_successful_frames :
    ∀ c ∈ ([0, 125, 126, 65535, 65536] : List (BitVec 64)),
    ∃ t d, exec (.encode (ask 2 0 c 65536 true)) (zeros 65536) = .next t ∧ t.pending = some d ∧ d.resp.status = 0 := by
  intro c hc
  refine encode_completes _ _ ?_ ?_ rfl
  · show (65536#64).toNat = 65536 ∧ (65536#64).toNat < 2 ^ 63; decide
  · simp only [List.mem_cons, List.not_mem_nil, or_false] at hc
    rcases hc with rfl | rfl | rfl | rfl | rfl <;>
      exact ⟨by decide, by show _ ≤ 2 ^ 63 - 1; decide, by show 0 + _ ≤ (65536#64).toNat; decide⟩

/-- For LayoutLaw also: two machines with different buffers and keys. -/
theorem test_witness_LayoutLaw :
    ∃ t d t' d', exec (.encode (ask 1 0 5 5 true)) (ready hello key1) = .next t ∧ t.pending = some d ∧ d.resp.status = 0 ∧
      exec (.encode (ask 1 0 5 5 true)) (zeros 5) = .next t' ∧ t'.pending = some d' ∧ d'.resp.status = 0 ∧
      d.resp.frame ≠ [] := by
  obtain ⟨t', d', h1, h2, h3⟩ := encode_completes (zeros 5) (ask 1 0 5 5 true) (by decide) (by decide) rfl
  exact ⟨_, _, t', d', rfl, rfl, rfl, h1, h2, h3, by decide⟩

/-- V3 and V4: an empty buffer, and the end of one. -/
theorem test_witness_EmptyPayloadFrame :
    (TrueLength (ready [] key1) (ask 9 0 0 0 true) ∧ Passes (ready [] key1) (ask 9 0 0 0 true) ∧
      (ready [] key1).entropy.answering = true ∧ (ask 9 0 0 0 true).count = 0) ∧
    (TrueLength (ready hello key1) (ask 10 5 0 5 true) ∧ Passes (ready hello key1) (ask 10 5 0 5 true)) := by decide

/-- Two machines whose buffers differ outside the range. -/
theorem test_witness_ResponseDependsOnPayloadAndDraw :
    (ready hello key1).cfg.maxCount = (ready [1, 0x65, 0x6C, 4, 5] key1).cfg.maxCount ∧
    TrueLength (ready hello key1) (ask 1 1 2 5 true) ∧ TrueLength (ready [1, 0x65, 0x6C, 4, 5] key1) (ask 1 1 2 5 true) ∧
    (bufferOf (ready hello key1) (ask 1 1 2 5 true)).slice 1 2 =
      (bufferOf (ready [1, 0x65, 0x6C, 4, 5] key1) (ask 1 1 2 5 true)).slice 1 2 ∧
    (ready hello key1).entropy.answer = (ready [1, 0x65, 0x6C, 4, 5] key1).entropy.answer ∧
    (nextOf (exec (.encode (ask 1 1 2 5 true)) (ready hello key1))).isSome = true := by decide

theorem test_witness_LenselSetsTheShape :
    (125#64).toNat < 126 ∧ 126 ≤ (126#64).toNat ∧ (126#64).toNat < 65536 ∧ 126 ≤ (65535#64).toNat ∧
    (65535#64).toNat < 65536 ∧ 65536 ≤ (65536#64).toNat := by decide

/-- HeaderAndFrameLengths: its ranges at their boundaries. -/
theorem test_witness_HeaderAndFrameLengths :
    125 < 126 ∧ (126 ≤ 126 ∧ 126 < 65536) ∧ (126 ≤ 65535 ∧ 65535 < 65536) ∧ 65536 ≤ 65536 ∧
    hdrlen 125 < hdrlen 126 ∧ framelen 65535 < framelen 65536 := by decide

/-- Room for the last byte exactly, for each of the writes to OUT. -/
theorem test_witness_frame_rooms :
    FrameRoom (inside 1 0 2) 0 1 ∧ FrameRoom (inside 2 0 2) 1 1 ∧
    ((inside 4 1 4).regs.sel = 1 ∧ FrameRoom (inside 4 1 4) 2 2) ∧ (inside 4 0 2).regs.sel ≠ 1 ∧
    ((inside 10 2 10).regs.sel = 2 ∧ FrameRoom (inside 10 2 10) 2 8) ∧ (inside 10 1 4).regs.sel ≠ 2 ∧
    FrameRoom (inside 6 0 2) (inside 6 0 2).regs.h.toNat 4 ∧
    FrameRoom (inside 8 1 4) (inside 8 1 4).regs.h.toNat 4 ∧
    FrameRoom (inside 14 2 10) (inside 14 2 10).regs.h.toNat 4 :=
  ⟨⟨_, rfl, by decide⟩, ⟨_, rfl, by decide⟩, ⟨rfl, _, rfl, by decide⟩, by decide, ⟨rfl, _, rfl, by decide⟩, by decide,
    ⟨_, rfl, by decide⟩, ⟨_, rfl, by decide⟩, ⟨_, rfl, by decide⟩⟩

theorem test_witness_KeygenDrawsOnce :
    State.reset.entropy.answering = true ∧ (ready hello key1).entropy.pinned = [key1] ∧
    (entropyAnswers false State.reset).entropy.answering = false := by decide

/-- The first and the last payload byte. -/
theorem test_witness_MaskedByteIsStored :
    ((inside 11 0 2).cmd = some (ask 1 0 5 5 true) ∧ (0#64).toNat + (0#64).toNat < (5#64).toNat ∧
      (inside 11 0 2).regs.off.toNat + (4#64).toNat < (bufferOf (inside 11 0 2) (ask 1 0 5 5 true)).len) ∧
    FrameRoom (inside 11 0 2) (2 + 4 + 0) 1 ∧ FrameRoom (inside 11 0 2) (2 + 4 + 4) 1 :=
  ⟨by decide, ⟨_, rfl, by decide⟩, ⟨_, rfl, by decide⟩⟩

/-- PositionIsTheLastIndexWritten and OperationsLeaveTheHostAlone: every write has a next state somewhere, and so has every
other operation. -/
theorem test_witness_operations_complete :
    ([.hpByte0 true 1, .hpByte1 5, .mkKeywr key1, .mkXor 4, .hpLensel 5, .mkKeygen, .frameL7 true 1 5,
        .frameL16 true 1 125, .frameL64 true 1 65535, .feCheck (ask 1 0 5 5 true), .encode (ask 1 0 5 5 true)] :
      List Instr).all (fun i => (nextOf (exec i (inside 11 0 2))).isSome) = true ∧
    (nextOf (exec (.hpExt16 300) (inside 4 1 4))).isSome = true ∧
    (nextOf (exec (.hpExt16 300) (inside 4 0 2))).isSome = true ∧
    (nextOf (exec (.hpExt64 65536) (inside 10 2 10))).isSome = true ∧
    (nextOf (exec (.hpExt64 65536) (inside 10 0 2))).isSome = true ∧ (4#64).toNat < 2 ^ 63 := by decide

/-- No frame; a frame that ends just before the last byte to be written; no command; the first index after the buffer. -/
theorem test_witness_AccessOutsideStops :
    (({ inside 0 1 4 with out := none } : State).out = none ∧ (inside 0 1 4).regs.sel = 1 ∧ (inside 0 2 10).regs.sel = 2 ∧
      (inside 0 1 4).cmd = some (ask 1 0 5 5 true) ∧ (4#64).toNat < (5#64).toNat) ∧
    ((inside 0 0 2).out = some ⟨0, []⟩ ∧ (inside 1 0 2).out = some ⟨1, []⟩ ∧ (inside 3 1 4).out = some ⟨3, []⟩ ∧
      (inside 9 2 10).out = some ⟨9, []⟩ ∧ (inside 5 0 2).out = some ⟨5, []⟩ ∧ 5 ≤ (inside 5 0 2).regs.h.toNat + 3 ∧
      (inside 10 0 2).out = some ⟨10, []⟩ ∧ 10 ≤ (inside 10 0 2).regs.h.toNat + 4 + (4#64).toNat ∧
      (inside 10 0 2).regs.off.toNat + (4#64).toNat < (bufferOf (inside 10 0 2) (ask 1 0 5 5 true)).len) ∧
    State.reset.cmd = none ∧
    ((inside 11 0 2).cmd = some (ask 1 0 5 5 true) ∧ (5#64).toNat ≤ (inside 11 0 2).regs.off.toNat + (5#64).toNat) := by
  decide

/-- A command in progress on a large buffer. -/
def reading (n : Nat) : State :=
  { zeros n with cmd := some (ask 2 0 0 (BitVec.ofNat 64 n) true) }

theorem payloadInside_reading (n : Nat) (h : n < 2 ^ 64) : PayloadInside (reading n) n := by
  have e : (BitVec.ofNat 64 n).toNat = n := by simp; omega
  refine .inr ⟨ask 2 0 0 (BitVec.ofNat 64 n) true, rfl, ?_, ?_⟩
  · show 0 + n ≤ (BitVec.ofNat 64 n).toNat; omega
  · show 0 + n ≤ n; omega

theorem test_witness_FormatL7 :
    ((0#7).toNat ≤ 125 ∧ PayloadInside State.reset (0#7).toNat) ∧
    ((125#7).toNat ≤ 125 ∧ (reading 125).entropy.answering = true ∧ PayloadInside (reading 125) (125#7).toNat) ∧
    125 < (126#7).toNat :=
  ⟨⟨by decide, .inl rfl⟩, ⟨by decide, rfl, payloadInside_reading 125 (by decide)⟩, by decide⟩

theorem test_witness_FormatL16 :
    (126 ≤ (126#16).toNat ∧ PayloadInside (reading 126) (126#16).toNat) ∧
    (126 ≤ (65535#16).toNat ∧ (reading 65535).entropy.answering = true ∧ PayloadInside (reading 65535) (65535#16).toNat) ∧
    (125#16).toNat < 126 :=
  ⟨⟨by decide, payloadInside_reading 126 (by decide)⟩, ⟨by decide, rfl, payloadInside_reading 65535 (by decide)⟩,
    by decide⟩

theorem test_witness_FormatL64 :
    (65536 ≤ (65536#63).toNat ∧ (reading 65536).entropy.answering = true ∧ PayloadInside (reading 65536) (65536#63).toNat) ∧
    (65536 ≤ (BitVec.ofNat 63 (2 ^ 63 - 1)).toNat ∧ PayloadInside (reading (2 ^ 63 - 1)) (2 ^ 63 - 1)) ∧
    (65535#63).toNat < 65536 :=
  ⟨⟨by decide, rfl, payloadInside_reading 65536 (by decide)⟩, ⟨by decide, payloadInside_reading (2 ^ 63 - 1) (by decide)⟩,
    by decide⟩

theorem test_witness_StepKeepsTheInvariant :
    Inv waiting1 ∧ Inv waiting2 ∧ (nextOf (step waiting1)).isSome = true := by decide

theorem test_witness_StepLeavesNoTrace :
    Idle waiting1 ∧ OnlyRequests waiting1 ∧ ∃ t, step waiting1 = .next t := by
  refine ⟨by decide, ?_, _, rfl⟩
  intro w hw
  simp only [waiting1, List.mem_cons, List.not_mem_nil, or_false] at hw
  exact ⟨_, hw⟩

theorem test_witness_DeliveredResponsesStay :
    ∃ t, step waiting1 = .next t ∧ t.delivered.length = 1 := ⟨_, rfl, by decide⟩

theorem test_witness_ResetEventIsInvisible :
    Idle (ready hello key1) ∧
    ∃ t d, exec (.encode (ask 1 0 5 5 true)) (ready hello key1) = .next t ∧ t.pending = some d :=
  ⟨by decide, _, _, rfl, rfl⟩

/-- R169: 257 and -1 are presented as values the block rejects; the ends of the ranges. -/
theorem test_witness_AdapterNeverTruncates :
    (adaptOpcode 257).toNat = 255 ∧ (adaptOpcode (-1)).toNat = 255 ∧ (adaptOpcode 15).toNat = 15 ∧
    (adaptOpcode 16).toNat = 16 ∧ (adaptWide (-1)).toNat = 2 ^ 64 - 1 ∧ (adaptWide 5).toNat = 5 ∧
    (adaptWide (2 ^ 63)).toNat = 2 ^ 63 ∧ (adaptWide (2 ^ 64)).toNat = 2 ^ 64 - 1 := by decide

/-- A run without end: the request that waits is served, then nothing happens for ever. -/
theorem test_witness_EveryWaitingRequestIsServedEventually :
    ∃ run, RunsWithHosts run ∧ OpWord.request (ask 1 0 5 5 true) ∈ (run 0).inbox := by
  obtain ⟨t, ht, hi⟩ : ∃ t, step waiting1 = .next t ∧ t.inbox = [] := ⟨_, rfl, rfl⟩
  refine ⟨fun n => if n = 0 then waiting1 else t, fun n => ?_,
    (by decide : OpWord.request (ask 1 0 5 5 true) ∈ waiting1.inbox)⟩
  cases n with
  | zero => exact ⟨waiting1, ⟨[], by simp, rfl, rfl⟩, ht⟩
  | succ n => exact ⟨t, ⟨[], by simp, rfl, rfl⟩, by simp [step, takeWord, hi]⟩

/-- The first and the last byte of a payload in use, the bytes just outside it, and a store and a declaration that are made. -/
theorem test_witness_PayloadInUseIsNotWritten :
    (openRequests waiting1 = [ask 1 0 5 5 true] ∧ inPayload 0 0 (ask 1 0 5 5 true) = true ∧
      inPayload 0 4 (ask 1 0 5 5 true) = true) ∧
    (inPayload 0 0 (ask 1 1 2 5 true) = false ∧ inPayload 0 3 (ask 1 1 2 5 true) = false) ∧
    (nextOf (hostStore 0 3 9 { waiting1 with inbox := [.request (ask 1 1 2 5 true)] })).isSome = true ∧
    (nextOf (hostBuffer hello waiting1)).isSome = true := by decide

theorem test_witness_EachLineCompletesItsCommand :
    Idle waiting2 ∧ waiting2.entropy.answering = true ∧ 1 ≤ waiting2.cfg.nReq ∧
    (waiting2.src.getD 0 ⟨0, []⟩).len < 2 ^ 63 ∧ ∀ w ∈ waiting2.inbox, ∃ r, w = .request r ∧ TrueLength waiting2 r :=
  ⟨by decide, by decide, by decide, by decide, test_witness_EveryWaitingRequestIsAnswered.2.2⟩

end Sys2Proof.Tests
end

section
/-! PROOFS. What an accepted ENCODE answers, said as one equation, and what it can answer at all. -/

namespace Sys2Proof.Machine

/-- FE.CHECK of a false length: refused (R167). -/
theorem checkThen_refused {r : Request} {s : State} (hl : lengthTrue s r = false) (k : State → Result) :
    checkThen r s k = .refused .bufferLengthMisstated := by
  rw [checkThen, hl, if_neg Bool.false_ne_true]

/-- FE.CHECK of a request that fails a test: the error is raised (R141). -/
theorem checkThen_error {r : Request} {s : State} {e : Err} (hl : lengthTrue s r = true)
    (hc : checkRequest s.cfg r = some e) (k : State → Result) : checkThen r s k = .next (raiseError e r s) := by
  simp only [checkThen, hl, hc, if_true]

/-- FE.CHECK of a request that passes: it goes on with the operands latched (R86). -/
theorem checkThen_passes {r : Request} {s : State} (hl : lengthTrue s r = true)
    (hc : checkRequest s.cfg r = none) (k : State → Result) : checkThen r s k = k (latchRequest r s) := by
  simp only [checkThen, hl, hc, if_true]

/-- The response of an ENCODE that passes FE.CHECK and whose draw is answered (40_encode_command R85, R91). -/
def successResponse (r : Request) (s : State) : Response where
  status := statusOk
  len := BitVec.ofNat 64 (framelen r.count.toNat)
  frame := frameOf r.final (r.opcode.extractLsb 3 0) r.count s.entropy.answer (payloadOf s r)

/-- The state after an ENCODE that passes FE.CHECK and whose draw is answered: one draw consumed, the response pending. -/
def encoded (r : Request) (s : State) : State :=
  endedWith r (successResponse r s) { s with entropy := s.entropy.advance }

/-- The registers and the command as FE.CHECK and HP.LENSEL leave them for the building of the frame. -/
def checkedAndShaped (r : Request) (s : State) : State :=
  { latchRequest r s with
    regs := { (latchRequest r s).regs with
      sel := (shape r.count).sel, h := (shape r.count).h, l7 := (shape r.count).l7 } }

@[simp] theorem checkedAndShaped_cnt (r : Request) (s : State) : (checkedAndShaped r s).regs.cnt = r.count := rfl
@[simp] theorem checkedAndShaped_finr (r : Request) (s : State) : (checkedAndShaped r s).regs.finr = r.final := rfl
@[simp] theorem checkedAndShaped_opc (r : Request) (s : State) :
    (checkedAndShaped r s).regs.opc = r.opcode.extractLsb 3 0 := rfl
@[simp] theorem checkedAndShaped_entropy (r : Request) (s : State) :
    (checkedAndShaped r s).entropy = s.entropy := rfl

theorem checkedAndShaped_shapeLatched (r : Request) (s : State) : ShapeLatched (checkedAndShaped r s) :=
  ⟨rfl, rfl, rfl⟩

/-- The payload the frame is built from is that of the request (R67). -/
@[simp] theorem payloadAt_checkedAndShaped (r : Request) (s : State) :
    payloadAt (checkedAndShaped r s) r.count.toNat = payloadOf s r := rfl

/-- ENCODE past the three tests: the frame is built from the latched registers, and OUT is the response (R85). -/
theorem execEncode_of_check {r : Request} {s : State} (hl : lengthTrue s r = true)
    (hc : checkRequest s.cfg r = none) :
    execEncode r s = andThen (buildFrame (checkedAndShaped r s)) fun t => .next (respondOk r t) :=
  checkThen_passes hl hc _

/-- A count that FE.CHECK lets through is below 2^63, since MAX_COUNT is (R9). -/
theorem count_lt_of_check {c : Config} {r : Request} (h : checkRequest c r = none) : r.count.toNat < 2 ^ 63 := by
  obtain ⟨_, hcount, _⟩ := checkRequest_none h
  exact Nat.lt_of_le_of_lt hcount c.maxCount.isLt

/-- The payload of a request that passes FE.CHECK lies inside its buffer (20_memory R49). -/
theorem payloadInside_of_check {r : Request} {s : State} (hl : lengthTrue s r = true)
    (hc : checkRequest s.cfg r = none) : PayloadInside (checkedAndShaped r s) r.count.toNat := by
  obtain ⟨hlen, _⟩ := (lengthTrue_iff s r).1 hl
  obtain ⟨_, _, hrange⟩ := checkRequest_none hc
  exact .inr ⟨r, rfl, hrange, Nat.le_trans hrange (Nat.le_of_eq hlen)⟩

/-- ENCODE past the three tests with an answered draw: the success response is pending, nothing of the command stays. -/
theorem execEncode_eq_encoded {r : Request} {s : State} (hl : lengthTrue s r = true)
    (hc : checkRequest s.cfg r = none) (ha : s.entropy.answering = true) :
    execEncode r s = .next (encoded r s) := by
  obtain ⟨i, p, f, hbuild, hlen, _, hbytes⟩ := buildFrame_spec (checkedAndShaped r s) (count_lt_of_check hc)
    (checkedAndShaped_shapeLatched r s) ha (payloadInside_of_check hl hc)
  have hresp : (⟨statusOk, BitVec.ofNat 64 f.len, f.bytes⟩ : Response) = successResponse r s := by
    simp [hlen, hbytes, successResponse]
  rw [execEncode_of_check hl hc, hbuild, andThen_next, encoded, ← hresp]
  rfl

/-- ENCODE past the three tests without an answer to the draw: no step (70_reset_and_hazards R164). -/
theorem execEncode_stuck {r : Request} {s : State} (hl : lengthTrue s r = true)
    (hc : checkRequest s.cfg r = none) (ha : s.entropy.answering = false) :
    execEncode r s = .fault .drawUnanswered := by
  rw [execEncode_of_check hl hc, buildFrame_stuck _ (count_lt_of_check hc) (checkedAndShaped_shapeLatched r s) ha]
  rfl

/-- An ENCODE that fails a test: the error is raised (R141). -/
theorem execEncode_error {r : Request} {s : State} {e : Err} (hl : lengthTrue s r = true)
    (hc : checkRequest s.cfg r = some e) : execEncode r s = .next (raiseError e r s) :=
  checkThen_error hl hc _

/-- An ENCODE with a false length: refused (R167). -/
theorem execEncode_refused {r : Request} {s : State} (hl : lengthTrue s r = false) :
    execEncode r s = .refused .bufferLengthMisstated :=
  checkThen_refused hl _

/-- Everything an ENCODE that has a next state can have done: raised the error of the first failing test, or answered with
the frame. -/
theorem execEncode_next {r : Request} {s t : State} (h : execEncode r s = .next t) :
    lengthTrue s r = true ∧
    ((∃ e, checkRequest s.cfg r = some e ∧ t = raiseError e r s) ∨
      (checkRequest s.cfg r = none ∧ s.entropy.answering = true ∧ t = encoded r s)) := by
  cases hl : lengthTrue s r with
  | false => rw [execEncode_refused hl] at h; cases h
  | true =>
    refine ⟨rfl, ?_⟩
    cases hc : checkRequest s.cfg r with
    | some e =>
      rw [execEncode_error hl hc] at h
      cases h
      exact .inl ⟨e, rfl, rfl⟩
    | none =>
      cases ha : s.entropy.answering with
      | false => rw [execEncode_stuck hl hc ha] at h; cases h
      | true =>
        rw [execEncode_eq_encoded hl hc ha] at h
        cases h
        exact .inr ⟨rfl, rfl, rfl⟩

end Sys2Proof.Machine
end

section
/-! PROOFS. The length laws of 00_scope R14, and that a success response is whole. -/

namespace Sys2Proof.Machine

theorem hdrlen_of_lt_126 {c : Nat} (h : c < 126) : hdrlen c = 2 := if_pos h

theorem hdrlen_of_lt_65536 {c : Nat} (h : 126 ≤ c) (h' : c < 65536) : hdrlen c = 4 := by
  rw [hdrlen, if_neg (Nat.not_lt.2 h), if_pos h']

theorem hdrlen_of_ge_65536 {c : Nat} (h : 65536 ≤ c) : hdrlen c = 10 := by
  rw [hdrlen, if_neg (by omega), if_neg (Nat.not_lt.2 h)]

/-- The three header sizes with the counts they belong to. -/
theorem hdrlen_cases (c : Nat) :
    (c < 126 ∧ hdrlen c = 2) ∨ (126 ≤ c ∧ c < 65536 ∧ hdrlen c = 4) ∨ (65536 ≤ c ∧ hdrlen c = 10) := by
  rcases Nat.lt_or_ge c 126 with h | h
  · exact .inl ⟨h, hdrlen_of_lt_126 h⟩
  · rcases Nat.lt_or_ge c 65536 with h' | h'
    · exact .inr (.inl ⟨h, h', hdrlen_of_lt_65536 h h'⟩)
    · exact .inr (.inr ⟨h', hdrlen_of_ge_65536 h'⟩)

theorem hdrlen_mono {c c' : Nat} (h : c ≤ c') : hdrlen c ≤ hdrlen c' := by
  rcases hdrlen_cases c with hc | hc | hc <;> rcases hdrlen_cases c' with hc' | hc' | hc' <;> omega

theorem framelen_strictMono {c c' : Nat} (h : c < c') : framelen c < framelen c' := by
  have := hdrlen_mono (Nat.le_of_lt h)
  unfold framelen
  omega

/-- The frame of a count below 2^63 has a length that fits the 64 bits of `resp_len` (10_state R27). -/
theorem framelen_lt {c : Nat} (h : c < 2 ^ 63) : framelen c < 2 ^ 64 := by
  unfold framelen
  rcases hdrlen_cases c with hc | hc | hc <;> omega

/-- The frame of a success response has the length of the length law (R89). -/
theorem successResponse_frame_length (r : Request) (s : State) :
    (successResponse r s).frame.length = framelen r.count.toNat := by
  simp [successResponse, frameOf_length, payloadOf, framelen]

/-- The length field of a success response is the length of its frame (R89). -/
theorem successResponse_len {r : Request} {c : Config} (s : State) (hc : checkRequest c r = none) :
    (successResponse r s).len.toNat = framelen r.count.toNat := by
  rw [successResponse, BitVec.toNat_ofNat, Nat.mod_eq_of_lt (framelen_lt (count_lt_of_check hc))]

/-- A success response is sound. -/
theorem successResponse_sound {r : Request} {c : Config} (s : State) (hc : checkRequest c r = none) :
    ResponseSound ⟨r, successResponse r s⟩ :=
  .inl ⟨rfl, successResponse_frame_length r s,
    (successResponse_len s hc).trans (successResponse_frame_length r s).symm⟩

end Sys2Proof.Machine
end

section
/-! PROOFS. Everything an operation that has a next state can have done, and what all of it keeps: the hosts' side, and the
part of the invariant that speaks of the block. -/

namespace Sys2Proof.Machine

/-- The registers as a frame format leaves them for the building of its frame (30_encoding R63 to R65). -/
def formatLatched (fin : Bool) (opc : BitVec 4) (cnt : BitVec 64) (s : State) : State :=
  { s with
    regs := { s.regs with
      finr := fin, opc := opc, cnt := cnt, sel := (shape cnt).sel, h := (shape cnt).h, l7 := (shape cnt).l7 } }

/-- A frame format builds its frame exactly when the count selects it. -/
theorem frameAs_eq (sel : BitVec 2) (fin : Bool) (opc : BitVec 4) (cnt : BitVec 64) (s : State) :
    frameAs sel fin opc cnt s =
      if (shape cnt).sel = sel then buildFrame (formatLatched fin opc cnt s) else .next s := rfl

/-- HP.LENSEL as a state (41_header_packer R105). -/
def shaped (cnt : BitVec 64) (s : State) : State :=
  { s with regs := { s.regs with sel := (shape cnt).sel, h := (shape cnt).h, l7 := (shape cnt).l7 } }

/-- What an operation can have made of a state. -/
inductive Effect (s : State) : State → Prop
  /-- It wrote OUT, drew, or was not performed. -/
  | inside {t : State} (h : Inside s t) : Effect s t
  /-- It set the header shape. -/
  | shaped (cnt : BitVec 64) : Effect s (shaped cnt s)
  /-- It built a frame of given header fields. -/
  | framed {t : State} (fin : Bool) (opc : BitVec 4) (cnt : BitVec 64) (hc : cnt.toNat < 2 ^ 63)
      (h : Inside (newFrame (formatLatched fin opc cnt s)) t) : Effect s t
  /-- It raised an error. -/
  | failed (e : Err) (r : Request) : Effect s (raiseError e r s)
  /-- It latched a request that passes FE.CHECK. -/
  | latched (r : Request) (hc : checkRequest s.cfg r = none) : Effect s (latchRequest r s)
  /-- It answered a request that passes FE.CHECK with its frame. -/
  | encoded (r : Request) (hc : checkRequest s.cfg r = none) : Effect s (encoded r s)

theorem frameAs_effect {sel : BitVec 2} {fin : Bool} {opc : BitVec 4} {cnt : BitVec 64} {s t : State}
    (hc : cnt.toNat < 2 ^ 63) (h : frameAs sel fin opc cnt s = .next t) : Effect s t := by
  rw [frameAs_eq] at h
  split at h
  · exact .framed fin opc cnt hc (buildFrame_inside h)
  · cases h; exact .inside (.rfl' s)

theorem execFeCheck_effect {r : Request} {s t : State} (h : execFeCheck r s = .next t) : Effect s t := by
  rcases checkThen_cases r s .next with ⟨_, e⟩ | ⟨err, _, _, e⟩ | ⟨_, hc, e⟩ <;>
    rw [execFeCheck, e] at h <;> cases h
  · exact .failed err r
  · exact .latched r hc

theorem execEncode_effect {r : Request} {s t : State} (h : execEncode r s = .next t) : Effect s t := by
  obtain ⟨_, ⟨e, _, rfl⟩ | ⟨hc, _, rfl⟩⟩ := execEncode_next h
  · exact .failed e r
  · exact .encoded r hc

/-- Every operation with a next state has one of the effects. -/
theorem exec_effect {i : Instr} {s t : State} (h : exec i s = .next t) : Effect s t := by
  cases i with
  | encode r => exact execEncode_effect h
  | frameL7 fin opc len => exact frameAs_effect (by rw [BitVec.toNat_setWidth]; omega) h
  | frameL16 fin opc n => exact frameAs_effect (by rw [BitVec.toNat_setWidth]; omega) h
  | frameL64 fin opc n => exact frameAs_effect (by rw [BitVec.toNat_setWidth]; omega) h
  | feCheck r => exact execFeCheck_effect h
  | hpLensel cnt => cases h; exact .shaped cnt
  | hpByte0 fin opc => exact .inside (memWrite_inside h)
  | hpByte1 l7 => exact .inside (memWrite_inside h)
  | hpExt16 n => exact .inside (execHpExt16_inside h)
  | hpExt64 n => exact .inside (execHpExt64_inside h)
  | mkKeygen => exact .inside (execMkKeygen_inside h)
  | mkKeywr k => exact .inside (memWriteList_inside_kept h)
  | mkXor idx => exact .inside (execMkXor_inside h)

/-- No effect touches the hosts' side (10_state R29, R33, 20_memory R45). -/
theorem Effect.hostKept {s t : State} (h : Effect s t) : HostKept s t := by
  cases h with
  | inside h => exact h.host
  | shaped cnt => exact ⟨rfl, rfl, rfl, rfl, rfl⟩
  | framed fin opc cnt hc h => exact ⟨h.host.src, h.host.cfg, h.host.inbox, h.host.arbiter, h.host.delivered⟩
  | failed e r => exact ⟨rfl, rfl, rfl, rfl, rfl⟩
  | latched r hc => exact ⟨rfl, rfl, rfl, rfl, rfl⟩
  | encoded r hc => exact ⟨rfl, rfl, rfl, rfl, rfl⟩

/-- The part of the invariant that an operation can touch: OUT in canonical form, the registers as R23 says, a response left
pending whole. -/
structure BlockSound (s : State) : Prop where
  out : OutWf s
  regs : RegsSound s.regs
  pending : ∀ d, s.pending = some d → ResponseSound d

/-- The registers of no command are sound. -/
theorem regsSound_idle : RegsSound Regs.idle := by decide

/-- A block at rest with a whole response pending is sound. -/
theorem blockSound_endedWith {r : Request} {resp : Response} (s : State) (h : ResponseSound ⟨r, resp⟩) :
    BlockSound (endedWith r resp s) where
  out := trivial
  regs := regsSound_idle
  pending d hd := by cases hd; exact h

theorem Inside.blockSound {s t : State} (h : Inside s t) (hs : BlockSound s) : BlockSound t where
  out := h.wf hs.out
  regs := by simpa only [RegsSound, h.cnt, h.sel, h.h] using hs.regs
  pending := by simpa only [h.pending] using hs.pending

/-- A frame just sized, from registers of a count that fits, is sound. -/
theorem blockSound_newFrame_formatLatched {s : State} {cnt : BitVec 64} (fin : Bool) (opc : BitVec 4)
    (hc : cnt.toNat < 2 ^ 63) (hs : BlockSound s) : BlockSound (newFrame (formatLatched fin opc cnt s)) where
  out := Space.wf_empty _
  regs := regsSound_of_shape hc rfl rfl
  pending := hs.pending

/-- Every effect keeps the block sound. -/
theorem Effect.blockSound {s t : State} (h : Effect s t) (hs : BlockSound s) : BlockSound t := by
  cases h with
  | inside h => exact h.blockSound hs
  | shaped cnt => exact ⟨hs.out, regsSound_of_shape hs.regs.1 rfl rfl, hs.pending⟩
  | framed fin opc cnt hc h => exact h.blockSound (blockSound_newFrame_formatLatched fin opc hc hs)
  | failed e r => exact blockSound_endedWith s (errorResponse_sound e r)
  | latched r hc => exact ⟨hs.out, ⟨count_lt_of_check hc, hs.regs.2⟩, hs.pending⟩
  | encoded r hc => exact blockSound_endedWith _ (successResponse_sound s hc)

/-- The invariant, as what it says of the block and what it says of the hosts' side. -/
theorem inv_iff (s : State) :
    Inv s ↔ BlockSound s ∧ s.pending = none ∧
      s.src.all Space.wf = true ∧ 1 ≤ s.cfg.nReq ∧ s.inbox.length ≤ s.cfg.nReq ∧ ∀ d ∈ s.delivered, ResponseSound d := by
  rw [Inv, memoryWf_iff]
  constructor
  · rintro ⟨⟨hsrc, hout⟩, hregs, hreq, hwait, hpend, hdel⟩
    exact ⟨⟨hout, hregs, fun d hd => by rw [hpend] at hd; cases hd⟩, hpend, hsrc, hreq, hwait, hdel⟩
  · rintro ⟨hblock, hpend, hsrc, hreq, hwait, hdel⟩
    exact ⟨⟨hsrc, hblock.out⟩, hblock.regs, hreq, hwait, hpend, hdel⟩

/-- Taking a waiting word keeps the invariant. -/
theorem takeWord_inv {s u : State} {w : OpWord} (h : takeWord s = some (w, u)) (hs : Inv s) : Inv u := by
  obtain ⟨_, hlen, _, ws, a, rfl⟩ := takeWord_waited h
  obtain ⟨hmem, hregs, hreq, hwait, hpend, hdel⟩ := hs
  have hfewer : ws.length + 1 = s.inbox.length := hlen
  exact ⟨hmem, hregs, hreq, by show ws.length ≤ s.cfg.nReq; omega, hpend, hdel⟩

/-- Performing an operation and delivering the response it leaves keeps the invariant. -/
theorem deliver_effect_inv {u v : State} (h : Effect u v) (hu : Inv u) : Inv (deliver v) := by
  obtain ⟨hblock, -, hsrc, hreq, hwait, hdel⟩ := (inv_iff u).1 hu
  obtain ⟨hout, hregs, hpend⟩ := h.blockSound hblock
  have host := h.hostKept
  refine (inv_iff _).2 ⟨⟨by simpa only [OutWf, deliver_out] using hout, by rwa [deliver_regs], by simp⟩,
    deliver_pending v, ?_, ?_, ?_, ?_⟩
  · rwa [deliver_src, host.src]
  · rwa [deliver_cfg, host.cfg]
  · rwa [deliver_inbox, deliver_cfg, host.inbox, host.cfg]
  · intro d hd
    rw [deliver_delivered, host.delivered, List.mem_append, Option.mem_toList] at hd
    exact hd.elim (hdel d) (hpend d)

/-- A step keeps the invariant. -/
theorem step_inv {s t : State} (hs : Inv s) (h : step s = .next t) : Inv t := by
  rcases step_next_cases h with ⟨_, rfl⟩ | ⟨w, u, i, v, htake, _, hexec, rfl⟩
  · exact hs
  · exact deliver_effect_inv (exec_effect hexec) (takeWord_inv htake hs)

end Sys2Proof.Machine

namespace Sys2Proof.Proofs

/-- Settles O44: every operation has one of six effects, each keeps the block sound and the hosts' side as it was, and the
response it leaves is whole when it is delivered. -/
theorem stepKeepsTheInvariant : Obligations.StepKeepsTheInvariant := fun _ _ => Machine.step_inv

end Sys2Proof.Proofs
end

section
/-! PROOFS. Accesses outside the frame or the buffer (00_scope R13, 20_memory R45, R46, R49). -/

namespace Sys2Proof.Machine

/-- A write with no frame in being stops. -/
theorem memWrite_noFrame {s : State} (ho : s.out = none) (p : Nat) (v : Byte) :
    memWrite p v s = .fault .writeWithoutFrame := by
  simp only [memWrite, ho]

/-- A write at or beyond the frame's length stops. -/
theorem memWrite_outside {s : State} {f : Space} {p : Nat} (ho : s.out = some f) (hp : f.len ≤ p) (v : Byte) :
    memWrite p v s = .fault .writeOutsideFrame := by
  simp only [memWrite, ho, if_neg (Nat.not_lt.2 hp)]

/-- A write inside the frame is made. -/
theorem memWrite_inFrame {s : State} {f : Space} {p : Nat} (ho : s.out = some f) (hp : p < f.len) (v : Byte) :
    memWrite p v s =
      .next { s with out := some (f.write p v), regs := { s.regs with pos := BitVec.ofNat 64 p } } := by
  simp only [memWrite, ho, if_pos hp]

/-- With no frame in being the first write of several stops. -/
theorem memWriteList_noFrame {s : State} (ho : s.out = none) (p : Nat) (v : Byte) (vs : List Byte) :
    memWriteList p (v :: vs) s = .fault .writeWithoutFrame := by
  rw [memWriteList, memWrite_noFrame ho, andThen_fault]

/-- Several bytes of which the last does not fit: some write stops, whichever is the first outside the frame. -/
theorem memWriteList_outside {s : State} {f : Space} {p : Nat} {v : Byte} {vs : List Byte} (ho : s.out = some f)
    (hp : f.len ≤ p + vs.length) : memWriteList p (v :: vs) s = .fault .writeOutsideFrame := by
  induction vs generalizing p v s f with
  | nil => rw [memWriteList, memWrite_outside (p := p) ho hp, andThen_fault]
  | cons w vs ih =>
    rw [memWriteList]
    rcases Nat.lt_or_ge p f.len with hin | hout
    · rw [memWrite_inFrame ho hin, andThen_next]
      exact ih rfl (by rw [Space.write_len]; simp only [List.length_cons] at hp; omega)
    · rw [memWrite_outside ho hout, andThen_fault]

/-- MK.XOR with a payload byte inside the buffer is the write of the masked byte. -/
theorem execMkXor_inBuffer {s : State} {r : Request} {idx : BitVec 64} (hc : s.cmd = some r)
    (h1 : s.regs.off.toNat + idx.toNat < r.buflen.toNat) (h2 : s.regs.off.toNat + idx.toNat < (bufferOf s r).len) :
    execMkXor idx s = memWrite (s.regs.h.toNat + 4 + idx.toNat)
      ((bufferOf s r).read (s.regs.off.toNat + idx.toNat) ^^^ keyLane s.regs.key idx.toNat)
      { s with regs := { s.regs with idx := idx } } := by
  simp only [execMkXor, memRead_inside hc h1 h2]

/-- MK.XOR with no command in progress has no buffer to read. -/
theorem execMkXor_noCommand {s : State} (hc : s.cmd = none) (idx : BitVec 64) :
    execMkXor idx s = .fault .readWithoutCommand := by
  simp only [execMkXor, memRead, hc]

/-- MK.XOR of a payload byte at or beyond `req_buflen` or the buffer's end stops. -/
theorem execMkXor_outsideBuffer {s : State} {r : Request} {idx : BitVec 64} (hc : s.cmd = some r)
    (h : r.buflen.toNat ≤ s.regs.off.toNat + idx.toNat ∨ (bufferOf s r).len ≤ s.regs.off.toNat + idx.toNat) :
    execMkXor idx s = .fault .readOutsideBuffer := by
  have hout : ¬ (s.regs.off.toNat + idx.toNat < r.buflen.toNat ∧ s.regs.off.toNat + idx.toNat < (bufferOf s r).len) := by
    omega
  simp only [execMkXor, memRead, hc, if_neg hout]

theorem execHpExt16_selected {s : State} (h : s.regs.sel = 1) (n : BitVec 16) :
    execHpExt16 n s = memWriteList 2 (split16 n) s := if_pos h

theorem execHpExt64_selected {s : State} (h : s.regs.sel = 2) (n : BitVec 63) :
    execHpExt64 n s = memWriteList 2 (split64 (n.setWidth 64)) s := if_pos h

end Sys2Proof.Machine

namespace Sys2Proof.Proofs
open Sys2Proof.Machine

/-- Settles O36: each operation is a list of writes, stopped by its first write outside the frame, and MK.XOR reads
first. -/
theorem accessOutsideStops : Obligations.AccessOutsideStops := by
  refine ⟨fun s ho => ⟨?_, ?_, ?_, ?_, ?_, ?_⟩, fun s f ho => ⟨?_, ?_, ?_, ?_, ?_, ?_⟩, ?_, ?_⟩
  · exact fun fin opc => memWrite_noFrame ho 0 (byte0 fin opc)
  · exact fun l7 => memWrite_noFrame ho 1 (byte1 l7)
  · exact fun hsel n => (execHpExt16_selected hsel n).trans (memWriteList_noFrame ho 2 _ _)
  · exact fun hsel n => (execHpExt64_selected hsel n).trans (memWriteList_noFrame ho 2 _ _)
  · exact fun k => memWriteList_noFrame ho s.regs.h.toNat k.k0 _
  · exact fun idx r hc h1 h2 => (execMkXor_inBuffer hc h1 h2).trans
      (memWrite_noFrame (s := { s with regs := { s.regs with idx := idx } }) ho _ _)
  · exact fun hlen fin opc => memWrite_outside ho hlen (byte0 fin opc)
  · exact fun hlen l7 => memWrite_outside ho hlen (byte1 l7)
  · exact fun hsel hlen n => (execHpExt16_selected hsel n).trans (memWriteList_outside ho hlen)
  · exact fun hsel hlen n => (execHpExt64_selected hsel n).trans (memWriteList_outside ho hlen)
  · exact fun hlen k => memWriteList_outside ho hlen
  · exact fun idx r hc h1 h2 hlen => (execMkXor_inBuffer hc h1 h2).trans
      (memWrite_outside (s := { s with regs := { s.regs with idx := idx } }) ho hlen _)
  · exact fun s idx hc => execMkXor_noCommand hc idx
  · exact fun s idx r hc h => execMkXor_outsideBuffer hc h

end Sys2Proof.Proofs
end

section
/-! PROOFS. Reset, the request port and the length laws. -/

namespace Sys2Proof.Machine

/-- A request presented while there is room waits last. -/
theorem present_of_room {s : State} (h : s.inbox.length < s.cfg.nReq) (r : Request) :
    present r s = some { s with inbox := s.inbox ++ [.request r] } := if_pos h

/-- A request presented while N_REQ wait is not accepted. -/
theorem present_of_full {s : State} (h : s.cfg.nReq ≤ s.inbox.length) (r : Request) : present r s = none :=
  if_neg (Nat.not_lt.2 h)

end Sys2Proof.Machine

namespace Sys2Proof.Proofs
open Sys2Proof.Machine

/-- Settles O6: each field has the value the reset state writes out. -/
theorem resetIsIdle : Obligations.ResetIsIdle := ⟨⟨rfl, rfl, rfl, rfl⟩, rfl, rfl, rfl⟩

/-- Settles O10, from the two cases of the request port. -/
theorem presentedRequestWaits : Obligations.PresentedRequestWaits := fun r _ =>
  ⟨fun h => present_of_room h r, fun h => present_of_full h r⟩

/-- Settles O26: the thresholds give the sizes, and a larger count never has a shorter header. -/
theorem headerAndFrameLengths : Obligations.HeaderAndFrameLengths :=
  ⟨fun _ => hdrlen_of_lt_126, fun _ => hdrlen_of_lt_65536, fun _ => hdrlen_of_ge_65536, fun _ => rfl,
    fun _ _ => hdrlen_mono, fun _ _ => framelen_strictMono⟩

/-- Settles O43: memory is canonical at reset, the registers are idle, and nothing waits or was answered. -/
theorem invariantAtReset : Obligations.InvariantAtReset :=
  ⟨reset_memoryWf, regsSound_idle, Nat.le_refl 1, Nat.zero_le 1, rfl, fun _ hd => absurd hd List.not_mem_nil⟩

end Sys2Proof.Proofs
end

section
/-! PROOFS. The state between commands (10_state R32, R34, 40_encode_command R91): a host's request leaves no trace of its
command, no operation touches the hosts' side, a false length is refused, and the reset event leaves the block idle. -/

namespace Sys2Proof.Machine

/-- A host's request that is an operation is ENCODE of its own record (30_encoding R77). -/
theorem decode_request_eq_ok {r : Request} {i : Instr} (h : decode (.request r) = .ok i) : i = .encode r := by
  rw [decode] at h
  split at h
  · cases h; rfl
  · cases h

/-- ENCODE gives up the registers, the command and OUT, whether it answers with the frame (R91) or an error (R141); once its
response is delivered the block is idle. -/
theorem deliver_execEncode_idle {r : Request} {s t : State} (h : execEncode r s = .next t) : Idle (deliver t) := by
  obtain ⟨_, ⟨e, _, rfl⟩ | ⟨_, _, rfl⟩⟩ := execEncode_next h <;>
    exact ⟨deliver_regs _, deliver_cmd _, deliver_out _, deliver_pending _⟩

/-- With only requests waiting, the word taken is one of them, and only requests go on waiting. -/
theorem takeWord_onlyRequests {s u : State} {w : OpWord} (h : takeWord s = some (w, u)) (hs : OnlyRequests s) :
    (∃ r, w = .request r) ∧ OnlyRequests u := by
  obtain ⟨hw, _, hrest, _⟩ := takeWord_waited h
  exact ⟨hs w hw, fun x hx => hs x (hrest x hx)⟩

/-- No operation touches the hosts' side. -/
theorem exec_hostKept {i : Instr} {s t : State} (h : exec i s = .next t) : HostKept s t := (exec_effect h).hostKept

/-- With only requests waiting, a step from an idle block leaves an idle block, and still only requests waiting. -/
theorem step_idle {s t : State} (hs : Idle s) (hreq : OnlyRequests s) (h : step s = .next t) :
    Idle t ∧ OnlyRequests t := by
  rcases step_next_cases h with ⟨_, rfl⟩ | ⟨w, u, i, v, htake, hdec, hexec, rfl⟩
  · exact ⟨hs, hreq⟩
  · obtain ⟨⟨r, rfl⟩, hu⟩ := takeWord_onlyRequests htake hreq
    obtain rfl := decode_request_eq_ok hdec
    have hinbox : (deliver v).inbox = u.inbox := (deliver_inbox v).trans (exec_hostKept hexec).inbox
    exact ⟨deliver_execEncode_idle hexec, fun x hx => hu x (hinbox ▸ hx)⟩

/-- The host broke its duty of R167 exactly where the model finds the length false. -/
theorem lengthTrue_eq_false_iff (s : State) (r : Request) : lengthTrue s r = false ↔ ¬ TrueLength s r := by
  rw [← Bool.not_eq_true, lengthTrue_iff]

end Sys2Proof.Machine

namespace Sys2Proof.Proofs
open Sys2Proof.Machine

/-- Settles O45: the word a step takes is a request, so its operation is ENCODE, which keeps nothing of its command. -/
theorem stepLeavesNoTrace : Obligations.StepLeavesNoTrace := fun _ _ => step_idle

/-- Settles O46, from the effects an operation can have. -/
theorem operationsLeaveTheHostAlone : Obligations.OperationsLeaveTheHostAlone := fun _ _ _ h =>
  have ⟨hsrc, hcfg, hinbox, harbiter, hdelivered⟩ := exec_hostKept h
  ⟨hsrc, hcfg, hinbox, harbiter, hdelivered⟩

/-- Settles O13: ENCODE and FE.CHECK have one front end, and it looks at the length first. -/
theorem falseLengthIsRefused : Obligations.FalseLengthIsRefused := fun s r h =>
  have hl : lengthTrue s r = false := (lengthTrue_eq_false_iff s r).2 h
  ⟨execEncode_refused hl, checkThen_refused hl .next⟩

/-- Settles O49, field by field. -/
theorem resetEventLeavesIdleBlock : Obligations.ResetEventLeavesIdleBlock := fun s =>
  ⟨⟨resetEvent_regs s, resetEvent_cmd s, resetEvent_out s, resetEvent_pending s⟩, resetEvent_delivered s,
    resetEvent_src s, resetEvent_cfg s, resetEvent_inbox s, congrArg Entropy.pinned (resetEvent_entropy s)⟩

end Sys2Proof.Proofs
end

section
/-! PROOFS. The output position `P` and the payload index `I` (10_state R22, R23). -/

namespace Sys2Proof.Machine

/-- A write leaves its index in `P`. -/
theorem memWrite_pos {p : Nat} {v : Byte} {s t : State} (h : memWrite p v s = .next t) :
    t.regs.pos = BitVec.ofNat 64 p := by
  obtain ⟨f, _, _, rfl⟩ := memWrite_next h
  rfl

/-- Writes of several bytes leave the index of the last in `P`. -/
theorem memWriteList_pos {p : Nat} {v : Byte} {vs : List Byte} {s t : State}
    (h : memWriteList p (v :: vs) s = .next t) : t.regs.pos = BitVec.ofNat 64 (p + vs.length) := by
  induction vs generalizing p v s with
  | nil =>
    obtain ⟨u, hu, hnil⟩ := andThen_eq_next h
    cases hnil
    exact memWrite_pos hu
  | cons w vs ih =>
    obtain ⟨u, _, hrest⟩ := andThen_eq_next h
    rw [ih hrest, List.length_cons, Nat.add_assoc, Nat.add_comm 1]

/-- HP.EXT16 leaves `P` at 3 where it is performed, and as it was otherwise (R108, log 12). -/
theorem execHpExt16_pos {n : BitVec 16} {s t : State} (h : execHpExt16 n s = .next t) :
    t.regs.pos = if s.regs.sel = 1 then 3 else s.regs.pos := by
  by_cases hsel : s.regs.sel = 1
  · rw [execHpExt16_selected hsel] at h
    rw [if_pos hsel]
    exact memWriteList_pos h
  · rw [execHpExt16, if_neg hsel] at h
    cases h
    rw [if_neg hsel]

/-- HP.EXT64 leaves `P` at 9 where it is performed, and as it was otherwise (R109, log 12). -/
theorem execHpExt64_pos {n : BitVec 63} {s t : State} (h : execHpExt64 n s = .next t) :
    t.regs.pos = if s.regs.sel = 2 then 9 else s.regs.pos := by
  by_cases hsel : s.regs.sel = 2
  · rw [execHpExt64_selected hsel] at h
    rw [if_pos hsel]
    exact memWriteList_pos h
  · rw [execHpExt64, if_neg hsel] at h
    cases h
    rw [if_neg hsel]

/-- MK.KEYWR leaves `P` at the last byte of the key field; the header size has 4 bits, so the index fits (R121). -/
theorem execMkKeywr_pos {k : Key} {s t : State} (h : execMkKeywr k s = .next t) :
    t.regs.pos.toNat = s.regs.h.toNat + 3 := by
  have hh := s.regs.h.isLt
  have hpos : t.regs.pos = BitVec.ofNat 64 (s.regs.h.toNat + 3) := memWriteList_pos h
  rw [hpos, BitVec.toNat_ofNat, Nat.mod_eq_of_lt (by omega)]

/-- MK.XOR with a next state is a write of one byte at `F[H + 4 + I]`, from the state with `I` latched (R122). -/
theorem execMkXor_next {idx : BitVec 64} {s t : State} (h : execMkXor idx s = .next t) :
    ∃ b, memWrite (s.regs.h.toNat + 4 + idx.toNat) b { s with regs := { s.regs with idx := idx } } = .next t := by
  unfold execMkXor at h
  split at h
  · cases h
  · exact ⟨_, h⟩

/-- MK.XOR leaves its payload index in `I`. -/
theorem execMkXor_idx {idx : BitVec 64} {s t : State} (h : execMkXor idx s = .next t) : t.regs.idx = idx := by
  obtain ⟨b, hb⟩ := execMkXor_next h
  obtain ⟨f, _, _, rfl⟩ := memWrite_next hb
  rfl

/-- MK.XOR leaves `P` at the byte it wrote; below 2^63 no sum wraps (00_scope R12). -/
theorem execMkXor_pos {idx : BitVec 64} {s t : State} (hidx : idx.toNat < 2 ^ 63) (h : execMkXor idx s = .next t) :
    t.regs.pos.toNat = s.regs.h.toNat + 4 + idx.toNat := by
  have hh := s.regs.h.isLt
  obtain ⟨b, hb⟩ := execMkXor_next h
  rw [memWrite_pos hb, BitVec.toNat_ofNat, Nat.mod_eq_of_lt (by omega)]

end Sys2Proof.Machine

namespace Sys2Proof.Proofs
open Sys2Proof.Machine

/-- Settles O35: each operation is a list of writes from a known index, and the last write sets `P`. -/
theorem positionIsTheLastIndexWritten : Obligations.PositionIsTheLastIndexWritten := by
  refine ⟨?_, ?_, ?_, ?_, ?_, ?_⟩
  · exact fun _ _ _ _ h => memWrite_pos h
  · exact fun _ _ _ h => memWrite_pos h
  · exact fun _ _ _ h => execHpExt16_pos h
  · exact fun _ _ _ h => execHpExt64_pos h
  · exact fun _ _ _ h => execMkKeywr_pos h
  · exact fun _ _ _ hidx h => ⟨execMkXor_pos hidx h, execMkXor_idx h⟩

end Sys2Proof.Proofs
end

section
/-! PROOFS. The extended lengths and the key in OUT (20_memory R40, R41): where several bytes fit, they are stored at
their indices and nothing else is. -/

namespace Sys2Proof.Machine

/-- Bytes that have room in OUT are stored, and besides OUT only `P` changes. -/
theorem memWriteList_storesAt {p : Nat} {s : State} (vs : List Byte) (h : FrameRoom s p vs.length) :
    ∃ t, memWriteList p vs s = .next t ∧ StoresAt p vs s t := by
  obtain ⟨f, ho, hw, hn⟩ := h
  cases vs with
  | nil =>
    refine ⟨s, rfl, f, f, s.regs.pos, ho, rfl, fun _ hi => absurd hi (Nat.not_lt_zero _), fun _ _ => rfl, ?_⟩
    rw [← ho]
  | cons v vs =>
    obtain ⟨g, e, hlen, _, hin, hout⟩ := memWriteList_inside p v vs ho hw hn
    exact ⟨_, e, f, g, _, ho, hlen, hin, hout, rfl⟩

theorem execHpExt16_notSelected {s : State} (h : s.regs.sel ≠ 1) (n : BitVec 16) : execHpExt16 n s = .next s :=
  if_neg h

theorem execHpExt64_notSelected {s : State} (h : s.regs.sel ≠ 2) (n : BitVec 63) : execHpExt64 n s = .next s :=
  if_neg h

/-- Byte `j` of a 63-bit count, carried in eight bytes with the most significant first (R40, R74). -/
theorem split64_setWidth_byte (n : BitVec 63) {j : Nat} (hj : j < 8) :
    ((split64 (n.setWidth 64)).getD j 0).toNat = n.toNat / 2 ^ (56 - 8 * j) % 256 := by
  rw [split64_byte _ j hj, BitVec.toNat_setWidth_of_le (by decide)]

end Sys2Proof.Machine

namespace Sys2Proof.Proofs
open Sys2Proof.Machine

/-- Settles O30: with `SEL = 1` HP.EXT16 is a write of two bytes that have room; otherwise it is not performed. -/
theorem sixteenBitExtensionIsStored : Obligations.SixteenBitExtensionIsStored := by
  refine fun n s => ⟨fun hsel hroom => ?_, fun hsel => execHpExt16_notSelected hsel n⟩
  obtain ⟨t, e, hstores⟩ := memWriteList_storesAt (split16 n) hroom
  exact ⟨t, (execHpExt16_selected hsel n).trans e, hstores⟩

/-- Settles O31: with `SEL = 2` HP.EXT64 is a write of the eight bytes of the count, which has 63 bits; otherwise it is not
performed. -/
theorem sixtyFourBitExtensionIsStored : Obligations.SixtyFourBitExtensionIsStored := by
  refine fun n s => ⟨fun hsel hroom => ?_, fun hsel => execHpExt64_notSelected hsel n⟩
  obtain ⟨t, e, hstores⟩ := memWriteList_storesAt (split64 (n.setWidth 64)) hroom
  exact ⟨t, split64 (n.setWidth 64), (execHpExt64_selected hsel n).trans e, hstores, rfl,
    fun _ hj => split64_setWidth_byte n hj, top_bit_of_63 n⟩

/-- Settles O33: MK.KEYWR is a write of the four key bytes from index `H` on. -/
theorem keyIsStored : Obligations.KeyIsStored := fun k _ hroom =>
  memWriteList_storesAt (keyBytes k) hroom

end Sys2Proof.Proofs
end

section
/-! PROOFS. What a step leaves of the hosts' memory and of the responses they have (20_memory R52). -/

namespace Sys2Proof.Machine

/-- A delivery appends at most the pending response. -/
theorem deliver_delivered_cases (s : State) :
    (deliver s).delivered = s.delivered ∨ ∃ d, (deliver s).delivered = s.delivered ++ [d] := by
  rw [deliver_delivered]
  cases s.pending with
  | none => exact .inl (List.append_nil _)
  | some d => exact .inr ⟨d, rfl⟩

/-- A step that has a next state delivers at most one response, after those already delivered, and writes no buffer and no
parameter: the word is taken, the operation performed and its response handed over without touching them. -/
theorem step_delivered {s t : State} (h : step s = .next t) :
    (t.delivered = s.delivered ∨ ∃ d, t.delivered = s.delivered ++ [d]) ∧ t.src = s.src ∧ t.cfg = s.cfg := by
  rcases step_next_cases h with ⟨_, rfl⟩ | ⟨w, u, i, v, htake, _, hexec, rfl⟩
  · exact ⟨.inl rfl, rfl, rfl⟩
  · obtain ⟨_, _, _, ws, a, rfl⟩ := takeWord_waited htake
    have hkept := exec_hostKept hexec
    have hdel := deliver_delivered_cases v
    rw [hkept.delivered] at hdel
    exact ⟨hdel, (deliver_src v).trans hkept.src, (deliver_cfg v).trans hkept.cfg⟩

end Sys2Proof.Machine

namespace Sys2Proof.Proofs

/-- Settles O47, from what a step is made of. -/
theorem deliveredResponsesStay : Obligations.DeliveredResponsesStay := fun _ _ => Machine.step_delivered

end Sys2Proof.Proofs
end

section
/-! PROOFS. The hosts' stores and declarations against the payloads in use (20_memory R50, R51, 70_reset_and_hazards
R166). -/

namespace Sys2Proof.Machine

/-- A byte of a buffer is in use exactly where it lies in the payload range of an open request. -/
theorem any_inPayload_iff (rs : List Request) (buf a : Nat) :
    rs.any (inPayload buf a) = true ↔
      ∃ r ∈ rs, r.buf = buf ∧ r.offset.toNat ≤ a ∧ a < r.offset.toNat + r.count.toNat := by
  simp only [List.any_eq_true, inPayload, decide_eq_true_eq]

/-- A host's store of a byte that is there: refused where the byte is in use, made where it is not. -/
theorem hostStore_of_byte {buf a : Nat} {s : State} {sp : Space} (hsp : s.src[buf]? = some sp) (ha : a < sp.len)
    (v : Byte) :
    hostStore buf a v s =
      if (openRequests s).any (inPayload buf a) then .refused .payloadInUse
      else .next { s with src := s.src.set buf (sp.write a v) } := by
  simp only [hostStore, hsp, if_pos ha]

/-- A slice does not see a write outside it. -/
theorem Space.slice_write_of_outside (sp : Space) {a o n : Nat} (v : Byte) (h : ¬ (o ≤ a ∧ a < o + n)) :
    (sp.write a v).slice o n = sp.slice o n := by
  refine List.map_congr_left fun i hi => sp.read_write_ne v ?_
  have := List.mem_range.1 hi
  omega

/-- The buffer a request names, where it is there. -/
theorem bufferOf_of_getElem? {s : State} {r : Request} {sp : Space} (h : s.src[r.buf]? = some sp) :
    bufferOf s r = sp := by
  rw [bufferOf, List.getD_eq_getElem?_getD, h, Option.getD_some]

/-- Another buffer set is not the buffer of the request. -/
theorem bufferOf_set_of_ne {r : Request} {buf : Nat} (h : r.buf ≠ buf) (s : State) (sp : Space) :
    bufferOf { s with src := s.src.set buf sp } r = bufferOf s r := by
  simp only [bufferOf, List.getD_eq_getElem?_getD, List.getElem?_set_ne h.symm]

/-- A buffer declared is not the buffer of a request that names another place, declared or not. -/
theorem bufferOf_append_of_ne {s : State} {r : Request} (h : r.buf ≠ s.src.length) (sp : Space) :
    bufferOf { s with src := s.src ++ [sp] } r = bufferOf s r := by
  simp only [bufferOf, List.getD_eq_getElem?_getD]
  rcases Nat.lt_or_gt_of_ne h with hlt | hgt
  · rw [List.getElem?_append_left hlt]
  · rw [List.getElem?_eq_none (by simpa using hgt), List.getElem?_eq_none (Nat.le_of_lt hgt)]

/-- A byte written outside the payload range of a request changes neither its payload nor the length of its buffer. -/
theorem payloadOf_write_of_not_inPayload {s : State} {r : Request} {buf a : Nat} {sp : Space}
    (hsp : s.src[buf]? = some sp) (v : Byte) (h : inPayload buf a r = false) :
    payloadOf { s with src := s.src.set buf (sp.write a v) } r = payloadOf s r ∧
    (bufferOf { s with src := s.src.set buf (sp.write a v) } r).len = (bufferOf s r).len := by
  by_cases hbuf : r.buf = buf
  · subst hbuf
    have hout : ¬ (r.offset.toNat ≤ a ∧ a < r.offset.toNat + r.count.toNat) := by simpa [inPayload] using h
    obtain ⟨hlt, _⟩ := List.getElem?_eq_some_iff.1 hsp
    have hnew : bufferOf { s with src := s.src.set r.buf (sp.write a v) } r = sp.write a v :=
      bufferOf_of_getElem? (List.getElem?_set_self hlt)
    rw [payloadOf, payloadOf, hnew, bufferOf_of_getElem? hsp]
    exact ⟨sp.slice_write_of_outside v hout, sp.write_len a v⟩
  · rw [payloadOf, payloadOf, bufferOf_set_of_ne hbuf]
    exact ⟨rfl, rfl⟩

/-- A host's store that is not refused keeps the payload of every request without a response. -/
theorem hostStore_payloadOf {buf a : Nat} {v : Byte} {s t : State} (h : hostStore buf a v s = .next t)
    {r : Request} (hr : r ∈ openRequests s) :
    payloadOf t r = payloadOf s r ∧ (bufferOf t r).len = (bufferOf s r).len := by
  rcases hostStore_cases buf a v s with e | ⟨_, e⟩ | ⟨sp, hsp, _, hfree, e⟩ <;> rw [e] at h <;> cases h
  · exact ⟨rfl, rfl⟩
  · exact payloadOf_write_of_not_inPayload hsp v (Bool.eq_false_iff.2 (List.any_eq_false.1 hfree r hr))

/-- A declaration that is not refused keeps the buffer of every request without a response. -/
theorem hostBuffer_bufferOf {bytes : List Byte} {s t : State} (h : hostBuffer bytes s = .next t) {r : Request}
    (hr : r ∈ openRequests s) : bufferOf t r = bufferOf s r := by
  unfold hostBuffer at h
  split at h
  · cases h
  · next hfree =>
    cases h
    refine bufferOf_append_of_ne (fun e => hfree ?_) _
    exact List.any_eq_true.2 ⟨r, hr, decide_eq_true e⟩

end Sys2Proof.Machine

namespace Sys2Proof.Proofs
open Sys2Proof.Machine

/-- Settles O53: a store of a byte in use is refused, any other writes outside every payload in use, and a declaration takes
a place no open request names. -/
theorem payloadInUseIsNotWritten : Obligations.PayloadInUseIsNotWritten := by
  refine ⟨fun buf a v s sp hsp ha => ⟨fun hused => ?_, fun hfree => ?_⟩,
    fun _ _ _ _ _ h _ hr => hostStore_payloadOf h hr, fun _ _ _ h _ hr => hostBuffer_bufferOf h hr⟩
  · rw [hostStore_of_byte hsp ha, if_pos ((any_inPayload_iff _ buf a).2 hused)]
  · rw [hostStore_of_byte hsp ha, if_neg fun h => ?_]
    obtain ⟨r, hr, hin⟩ := (any_inPayload_iff _ buf a).1 h
    exact hfree r hr hin

end Sys2Proof.Proofs
end

section
/-! PROOFS. Headers taken apart and put together again (30_encoding R61 to R65, R70, R78): what the recogniser reads from the
header of each format, and that it reads nothing else. -/

namespace Sys2Proof

/-- The recogniser on a header of format L7 (R63). -/
theorem recognise_L7 (fin : Bool) (opc : BitVec 4) {len : BitVec 7} (h : len.toNat ≤ 125) (rest : List Byte) :
    recognise (byte0 fin opc :: byte1 len :: rest) = .ok (.frameL7 fin opc len, rest) := by
  have h126 : len ≠ 126#7 := by rintro rfl; exact absurd h (by decide)
  have h127 : len ≠ 127#7 := by rintro rfl; exact absurd h (by decide)
  simp only [recognise, byte0_fin, byte0_rsv, byte0_opcode, byte1_mask, byte1_len7, h126, h127, ne_eq,
    not_true_eq_false, Bool.true_eq_false, if_false]

/-- The recogniser on a header of format L16 (R64). -/
theorem recognise_L16 (fin : Bool) (opc : BitVec 4) (n : BitVec 16) (rest : List Byte) :
    recognise (byte0 fin opc :: byte1 126#7 :: (split16 n ++ rest)) = .ok (.frameL16 fin opc n, rest) := by
  simp only [recognise, split16, List.cons_append, List.nil_append, byte0_fin, byte0_rsv, byte0_opcode, byte1_mask,
    byte1_len7, append_split16, ne_eq, not_true_eq_false, Bool.true_eq_false, if_false, if_true]

/-- The recogniser on a header of format L64 (R65), whose length has 63 bits (R74). -/
theorem recognise_L64 (fin : Bool) (opc : BitVec 4) (n : BitVec 63) (rest : List Byte) :
    recognise (byte0 fin opc :: byte1 127#7 :: (split64 (n.setWidth 64) ++ rest)) = .ok (.frameL64 fin opc n, rest) := by
  have hne : (127#7 : BitVec 7) ≠ 126#7 := by decide
  simp only [recognise, split64, List.cons_append, List.nil_append, byte0_fin, byte0_rsv, byte0_opcode, byte1_mask,
    byte1_len7, join64_split64, top_bit_of_63, setWidth_63_64, hne, ne_eq, not_true_eq_false, Bool.true_eq_false,
    Bool.false_eq_true, if_false, if_true]

/-- A header the recogniser takes: one of the three formats, laid down as R63 to R65 say. -/
inductive HeaderForm : List Byte → Instr → List Byte → Prop
  | l7 (fin : Bool) (opc : BitVec 4) (len : BitVec 7) (h : len.toNat ≤ 125) (tail : List Byte) :
    HeaderForm (byte0 fin opc :: byte1 len :: tail) (.frameL7 fin opc len) tail
  | l16 (fin : Bool) (opc : BitVec 4) (n : BitVec 16) (tail : List Byte) :
    HeaderForm (byte0 fin opc :: byte1 126#7 :: (split16 n ++ tail)) (.frameL16 fin opc n) tail
  | l64 (fin : Bool) (opc : BitVec 4) (n : BitVec 63) (tail : List Byte) :
    HeaderForm (byte0 fin opc :: byte1 127#7 :: (split64 (n.setWidth 64) ++ tail)) (.frameL64 fin opc n) tail

/-- A 7-bit length that is no sentinel is at most 125 (R73). -/
theorem len7_le_of_ne : ∀ len : BitVec 7, len ≠ 126#7 → len ≠ 127#7 → len.toNat ≤ 125 := by decide

/-- Eight bytes with a clear top bit are those of the 63-bit value they join to (R74). -/
theorem split64_low63 {e0 e1 e2 e3 e4 e5 e6 e7 : Byte} (h : e0.getLsbD 7 = false) :
    split64 (((join64 e0 e1 e2 e3 e4 e5 e6 e7).setWidth 63).setWidth 64) = [e0, e1, e2, e3, e4, e5, e6, e7] := by
  rw [join64_low63 _ _ _ _ _ _ _ _ h, split64_join64]

/-- Whatever the recogniser takes is a header of the format it names, followed by the bytes it leaves. -/
theorem headerForm_of_recognise {bs tail : List Byte} {i : Instr} (h : recognise bs = .ok (i, tail)) :
    HeaderForm bs i tail := by
  unfold recognise at h
  split at h
  · next b0 b1 rest =>
    split at h
    · cases h
    · next hrsv =>
      split at h
      · cases h
      · next hmask =>
        rw [← byte0_of_fields b0 (not_not.1 hrsv), ← byte1_of_field b1 (Bool.eq_true_of_not_eq_false hmask)]
        split at h
        · next h126 =>
          rw [h126]
          split at h
          · next n1 n0 rest =>
            cases h
            have hform := HeaderForm.l16 (b0.getLsbD 7) (b0.extractLsb 3 0) (n1 ++ n0) tail
            rwa [split16_append] at hform
          · cases h
        · next h126 =>
          split at h
          · next h127 =>
            rw [h127]
            split at h
            · next e0 e1 e2 e3 e4 e5 e6 e7 rest =>
              split at h
              · cases h
              · next htop =>
                cases h
                have hform := HeaderForm.l64 (b0.getLsbD 7) (b0.extractLsb 3 0)
                  ((join64 e0 e1 e2 e3 e4 e5 e6 e7).setWidth 63) tail
                rwa [split64_low63 (Bool.eq_false_of_not_eq_true htop)] at hform
            · cases h
          · next h127 => cases h; exact .l7 _ _ _ (len7_le_of_ne _ h126 h127) _
  · cases h

/-- A whole header is one word exactly when the recogniser leaves nothing of it. -/
theorem decodeHeader_eq_ok {bs : List Byte} {i : Instr} : decodeHeader bs = .ok i ↔ recognise bs = .ok (i, []) := by
  unfold decodeHeader
  split <;> simp_all

/-- A frame row takes a whole header of its own format, and no other. -/
theorem decodeFrameRow_eq_ok {row : BitRow} {bs : List Byte} {i : Instr} :
    decodeFrameRow row bs = .ok i ↔ recognise bs = .ok (i, []) ∧ i.frameRow = some row := by
  rw [← decodeHeader_eq_ok]
  unfold decodeFrameRow
  cases decodeHeader bs with
  | error e => simp
  | ok j =>
    by_cases hj : j.frameRow = some row
    · simp only [hj, if_true, Except.ok.injEq]
      exact ⟨fun h => ⟨h, h ▸ hj⟩, And.left⟩
    · simp only [hj, if_false, Except.ok.injEq, reduceCtorEq, false_iff]
      rintro ⟨rfl, h⟩
      exact hj h

/-! The words of the operations without a frame format, read back (R77, R81). -/

theorem decodeByte0_byte0 (fin : Bool) (opc : BitVec 4) : decodeByte0 [byte0 fin opc] = .ok (.hpByte0 fin opc) := by
  simp only [decodeByte0, byte0_rsv, byte0_fin, byte0_opcode, ne_eq, not_true_eq_false, if_false]

theorem decodeByte1_byte1 (l7 : BitVec 7) : decodeByte1 [byte1 l7] = .ok (.hpByte1 l7) := by
  simp only [decodeByte1, byte1_mask, byte1_len7, Bool.true_eq_false, if_false]

theorem decodeExt16_split16 (n : BitVec 16) : decodeExt16 (split16 n) = .ok (.hpExt16 n) := by
  simp only [decodeExt16, split16, append_split16]

theorem decodeExt64_split64 (n : BitVec 63) : decodeExt64 (split64 (n.setWidth 64)) = .ok (.hpExt64 n) := by
  simp only [decodeExt64, split64, top_bit_of_63, join64_split64, setWidth_63_64, Bool.false_eq_true, if_false]

/-- A request record with a legal buffer length is the operation of its port (R77). -/
theorem decode_request_of_legal {r : Request} (h : r.legal = true) : decode (.request r) = .ok (.encode r) := if_pos h

theorem decode_checkRequest_of_legal {r : Request} (h : r.legal = true) :
    decode (.checkRequest r) = .ok (.feCheck r) := if_pos h

/-- The decoder gives a well-formed operation back from its word. -/
theorem decode_encode {i : Instr} (h : WellFormed i) : decode (encode i) = .ok i := by
  cases i with
  | encode r => exact decode_request_of_legal h
  | frameL7 fin opc len => exact decodeFrameRow_eq_ok.2 ⟨recognise_L7 fin opc (of_decide_eq_true h) [], rfl⟩
  | frameL16 fin opc n => exact decodeFrameRow_eq_ok.2 ⟨recognise_L16 fin opc n [], rfl⟩
  | frameL64 fin opc n => exact decodeFrameRow_eq_ok.2 ⟨recognise_L64 fin opc n [], rfl⟩
  | feCheck r => exact decode_checkRequest_of_legal h
  | hpLensel cnt => exact decodeOperand64_split64 .hpLensel cnt (of_decide_eq_true h)
  | hpByte0 fin opc => exact decodeByte0_byte0 fin opc
  | hpByte1 l7 => exact decodeByte1_byte1 l7
  | hpExt16 n => exact decodeExt16_split16 n
  | hpExt64 n => exact decodeExt64_split64 n
  | mkKeygen => rfl
  | mkKeywr k => rfl
  | mkXor idx => exact decodeOperand64_split64 .mkXor idx (of_decide_eq_true h)

/-- The word `w` is that of the well-formed operation `i`. -/
def IsWordOf (w : OpWord) (i : Instr) : Prop := WellFormed i ∧ encode i = w

/-! What each row of the decoder takes is the word of the operation it answers. -/

theorem isWordOf_of_decodeFrameRow {row : BitRow} {bs : List Byte} {i : Instr} (h : decodeFrameRow row bs = .ok i) :
    IsWordOf (.bits row bs) i := by
  obtain ⟨hrec, hrow⟩ := decodeFrameRow_eq_ok.1 h
  cases headerForm_of_recognise hrec with
  | l7 fin opc len hlen => cases hrow; exact ⟨decide_eq_true hlen, rfl⟩
  | l16 fin opc n => cases hrow; exact ⟨rfl, rfl⟩
  | l64 fin opc n => cases hrow; exact ⟨rfl, rfl⟩

/-- A 64-bit operand is read from its eight bytes, and fits 63 bits. -/
theorem decodeOperand64_eq_ok {f : BitVec 64 → Instr} {bs : List Byte} {i : Instr} (h : decodeOperand64 f bs = .ok i) :
    ∃ v, v.toNat < 2 ^ 63 ∧ i = f v ∧ split64 v = bs := by
  unfold decodeOperand64 at h
  split at h
  · split at h
    · next hlt => cases h; exact ⟨_, hlt, rfl, split64_join64 _ _ _ _ _ _ _ _⟩
    · cases h
  · cases h

theorem isWordOf_of_decodeByte0 {bs : List Byte} {i : Instr} (h : decodeByte0 bs = .ok i) :
    IsWordOf (.bits .hpByte0 bs) i := by
  unfold decodeByte0 at h
  split at h
  · next b =>
    split at h
    · cases h
    · next hrsv =>
      cases h
      exact ⟨rfl, by rw [encode, byte0_of_fields b (not_not.1 hrsv)]⟩
  · cases h

theorem isWordOf_of_decodeByte1 {bs : List Byte} {i : Instr} (h : decodeByte1 bs = .ok i) :
    IsWordOf (.bits .hpByte1 bs) i := by
  unfold decodeByte1 at h
  split at h
  · next b =>
    split at h
    · cases h
    · next hmask =>
      cases h
      exact ⟨rfl, by rw [encode, byte1_of_field b (Bool.eq_true_of_not_eq_false hmask)]⟩
  · cases h

theorem isWordOf_of_decodeExt16 {bs : List Byte} {i : Instr} (h : decodeExt16 bs = .ok i) :
    IsWordOf (.bits .hpExt16 bs) i := by
  unfold decodeExt16 at h
  split at h
  · next n1 n0 => cases h; exact ⟨rfl, by rw [encode, split16_append]⟩
  · cases h

theorem isWordOf_of_decodeExt64 {bs : List Byte} {i : Instr} (h : decodeExt64 bs = .ok i) :
    IsWordOf (.bits .hpExt64 bs) i := by
  unfold decodeExt64 at h
  split at h
  · split at h
    · cases h
    · next htop => cases h; exact ⟨rfl, by rw [encode, split64_low63 (Bool.eq_false_of_not_eq_true htop)]⟩
  · cases h

theorem isWordOf_of_decodeKeygen {bs : List Byte} {i : Instr} (h : decodeKeygen bs = .ok i) :
    IsWordOf (.bits .mkKeygen bs) i := by
  cases bs with
  | nil => cases h; exact ⟨rfl, rfl⟩
  | cons b bs => cases h

theorem isWordOf_of_decodeKeywr {bs : List Byte} {i : Instr} (h : decodeKeywr bs = .ok i) :
    IsWordOf (.bits .mkKeywr bs) i := by
  unfold decodeKeywr at h
  split at h
  · cases h; exact ⟨rfl, rfl⟩
  · cases h

/-- A bit row's word that decodes is the word of what it decodes to. -/
theorem isWordOf_of_decode_bits {row : BitRow} {bs : List Byte} {i : Instr} (h : decode (.bits row bs) = .ok i) :
    IsWordOf (.bits row bs) i := by
  cases row with
  | frameL7 => exact isWordOf_of_decodeFrameRow h
  | frameL16 => exact isWordOf_of_decodeFrameRow h
  | frameL64 => exact isWordOf_of_decodeFrameRow h
  | hpLensel =>
    obtain ⟨v, hv, rfl, rfl⟩ := decodeOperand64_eq_ok h
    exact ⟨decide_eq_true hv, rfl⟩
  | hpByte0 => exact isWordOf_of_decodeByte0 h
  | hpByte1 => exact isWordOf_of_decodeByte1 h
  | hpExt16 => exact isWordOf_of_decodeExt16 h
  | hpExt64 => exact isWordOf_of_decodeExt64 h
  | mkKeygen => exact isWordOf_of_decodeKeygen h
  | mkKeywr => exact isWordOf_of_decodeKeywr h
  | mkXor =>
    obtain ⟨v, hv, rfl, rfl⟩ := decodeOperand64_eq_ok h
    exact ⟨decide_eq_true hv, rfl⟩

/-- A word that decodes is the word of what it decodes to. -/
theorem isWordOf_of_decode {w : OpWord} {i : Instr} (h : decode w = .ok i) : IsWordOf w i := by
  cases w with
  | request r =>
    rw [decode] at h
    split at h
    · next hl => cases h; exact ⟨hl, rfl⟩
    · cases h
  | checkRequest r =>
    rw [decode] at h
    split at h
    · next hl => cases h; exact ⟨hl, rfl⟩
    · cases h
  | bits row bs => exact isWordOf_of_decode_bits h

end Sys2Proof

namespace Sys2Proof.Proofs

/-- Settles O2, operation by operation: the decoder of each row reads the fields back from the bytes they were put in. -/
theorem decodeOfEncode : Obligations.DecodeOfEncode := fun _ => decode_encode

/-- Settles O3, row by row: the bytes a row's decoder takes are those its operation puts down. -/
theorem encodeOfDecode : Obligations.EncodeOfDecode := fun _ _ => isWordOf_of_decode

end Sys2Proof.Proofs
end

section
/-! PROOFS. A legal ENCODE is answered with exactly the frame (40_encode_command R85, R91, R110, R125). -/

namespace Sys2Proof.Machine

/-- None of the three error conditions holds exactly where the three tests of FE.CHECK name no error (R86). -/
theorem checkRequest_eq_none_iff (s : State) (r : Request) : checkRequest s.cfg r = none ↔ Passes s r := by
  refine ⟨checkRequest_none, fun ⟨hopcode, hcount, hrange⟩ => ?_⟩
  rw [checkRequest_eq, if_neg (Nat.not_lt.2 hopcode), if_neg (Nat.not_lt.2 hcount), if_neg (Nat.not_lt.2 hrange)]

end Sys2Proof.Machine

namespace Sys2Proof.Proofs
open Sys2Proof.Machine

/-- Settles O11: past the three tests the frame is built in OUT by the induction over the payload loop, and OUT is the
response. -/
theorem encodeRespondsWithTheFrame : Obligations.EncodeRespondsWithTheFrame := fun s r hlen hpass ha =>
  execEncode_eq_encoded ((lengthTrue_iff s r).2 hlen) ((checkRequest_eq_none_iff s r).2 hpass) ha

end Sys2Proof.Proofs
end

section
/-! PROOFS. The header of a frame as its bytes (41_header_packer R110), and the three frame rows over its first two bytes
(30_encoding R78). -/

namespace Sys2Proof

/-! The three rows over `W`, in numbers. -/

theorem accepts_L7_iff (W : BitVec 16) : patternL7.accepts W = true ↔ W &&& 0x7080#16 = 0x0080#16 := beq_iff_eq
theorem accepts_L16_iff (W : BitVec 16) : patternL16.accepts W = true ↔ W &&& 0x70FF#16 = 0x00FE#16 := beq_iff_eq
theorem accepts_L64_iff (W : BitVec 16) : patternL64.accepts W = true ↔ W &&& 0x70FF#16 = 0x00FF#16 := beq_iff_eq

/-- Of `W` of a header, the fixed bits of the extended rows are those of byte 1. -/
theorem byte0_append_byte1_70FF (fin : Bool) (opc : BitVec 4) (len : BitVec 7) :
    (byte0 fin opc ++ byte1 len) &&& 0x70FF#16 = 0x00#8 ++ byte1 len := by
  show (byte0 fin opc ++ byte1 len) &&& (0x70#8 ++ 0xFF#8) = 0x00#8 ++ byte1 len
  rw [Laws.FixedBits.and_append, Laws.FixedBits.byte0_and_70]
  exact congrArg (0x00#8 ++ ·) BitVec.and_allOnes

/-- Byte 0 does not meet the mask of the length field: the low seven bits of `W` are the field. -/
theorem byte0_append_byte1_len7 (fin : Bool) (opc : BitVec 4) (len : BitVec 7) :
    ((byte0 fin opc ++ byte1 len) &&& 0x7F#16).toNat = len.toNat := by
  have h : (byte0 fin opc ++ byte1 len) &&& (0x00#8 ++ 0x7F#8) = 0x00#8 ++ (byte1 len &&& 0x7F#8) := by
    rw [Laws.FixedBits.and_append, BitVec.and_zero]
  refine (congrArg BitVec.toNat h).trans ?_
  rw [BitVec.toNat_append, Laws.FixedBits.byte1_and_7F]
  simp

/-- The L7 row's fixed bits are those of bytes 0 and 1, whatever the length field. -/
theorem patternL7_accepts (fin : Bool) (opc : BitVec 4) (len : BitVec 7) :
    patternL7.accepts (byte0 fin opc ++ byte1 len) = true := by
  rw [accepts_L7_iff]
  show (byte0 fin opc ++ byte1 len) &&& (0x70#8 ++ 0x80#8) = 0x0080#16
  rw [Laws.FixedBits.and_append, Laws.FixedBits.byte0_and_70, Laws.FixedBits.byte1_and_80]
  rfl

/-- The L16 row fixes the length field to the sentinel 126 (R73). -/
theorem patternL16_accepts_iff (fin : Bool) (opc : BitVec 4) (len : BitVec 7) :
    patternL16.accepts (byte0 fin opc ++ byte1 len) = true ↔ len = 126#7 := by
  rw [accepts_L16_iff, byte0_append_byte1_70FF]
  revert len
  decide

/-- The L64 row fixes the length field to the sentinel 127 (R73). -/
theorem patternL64_accepts_iff (fin : Bool) (opc : BitVec 4) (len : BitVec 7) :
    patternL64.accepts (byte0 fin opc ++ byte1 len) = true ↔ len = 127#7 := by
  rw [accepts_L64_iff, byte0_append_byte1_70FF]
  revert len
  decide

/-- The rows FRAME.L16 and FRAME.L64 fix the same bits differently. -/
theorem not_patternL16_and_patternL64 (W : BitVec 16) :
    ¬ (patternL16.accepts W = true ∧ patternL64.accepts W = true) := by
  rw [accepts_L16_iff, accepts_L64_iff]
  rintro ⟨h16, h64⟩
  exact absurd (h16.symm.trans h64) (by decide)

/-- The rows of the extended lengths fix a length field above 125 (R73). -/
theorem len7_of_extended {W : BitVec 16} (h : patternL16.accepts W = true ∨ patternL64.accepts W = true) :
    125 < (W &&& 0x7F#16).toNat := by
  have hmask : W &&& 0x7F#16 = W &&& 0x70FF#16 &&& 0x7F#16 := by rw [BitVec.and_assoc]; rfl
  rw [accepts_L16_iff, accepts_L64_iff] at h
  rw [hmask]
  rcases h with h | h
  · rw [h]; decide
  · rw [h]; decide

/-- What the recogniser takes a header for, said of the patterns of its first two bytes (R78). -/
theorem frameRow_iff_pattern {b0 b1 : Byte} {rest tail : List Byte} {i : Instr}
    (h : HeaderForm (b0 :: b1 :: rest) i tail) :
    (i.frameRow = some .frameL7 ↔ patternL7.accepts (b0 ++ b1) = true ∧ ((b0 ++ b1) &&& 0x7F#16).toNat ≤ 125) ∧
    (i.frameRow = some .frameL16 ↔ patternL16.accepts (b0 ++ b1) = true) ∧
    (i.frameRow = some .frameL64 ↔ patternL64.accepts (b0 ++ b1) = true) ∧
    (i.frameRow = some .frameL64 → ∃ f2 rest', rest = f2 :: rest' ∧ f2.getLsbD 7 = false) := by
  cases h with
  | l7 fin opc len hlen =>
    have h126 : len ≠ 126#7 := by rintro rfl; exact absurd hlen (by decide)
    have h127 : len ≠ 127#7 := by rintro rfl; exact absurd hlen (by decide)
    rw [byte0_append_byte1_len7, patternL16_accepts_iff, patternL64_accepts_iff]
    simp [Instr.frameRow, patternL7_accepts, hlen, h126, h127]
  | l16 fin opc n =>
    rw [byte0_append_byte1_len7, patternL16_accepts_iff, patternL64_accepts_iff]
    simp [Instr.frameRow]
  | l64 fin opc n =>
    rw [byte0_append_byte1_len7, patternL16_accepts_iff, patternL64_accepts_iff]
    refine ⟨?_, ?_, ?_, fun _ => ⟨_, _, rfl, top_bit_of_63 n⟩⟩ <;> simp [Instr.frameRow]

end Sys2Proof

namespace Sys2Proof.Machine

/-! The header of each format, in the bytes the recogniser reads (R63 to R65). -/

theorem header_of_lt_126 (fin : Bool) (opc : BitVec 4) {c : BitVec 64} (h : c.toNat < 126) :
    header fin opc c = [byte0 fin opc, byte1 (c.extractLsb 6 0)] := if_pos h

theorem header_of_lt_65536 (fin : Bool) (opc : BitVec 4) {c : BitVec 64} (h : 126 ≤ c.toNat) (h' : c.toNat < 65536) :
    header fin opc c = byte0 fin opc :: byte1 126#7 :: split16 (c.extractLsb 15 0) := by
  rw [header, if_neg (Nat.not_lt.2 h), if_pos h', split16_low16]
  rfl

theorem header_of_ge_65536 (fin : Bool) (opc : BitVec 4) {c : BitVec 64} (h : 65536 ≤ c.toNat) :
    header fin opc c = byte0 fin opc :: byte1 127#7 :: split64 c := by
  rw [header, if_neg (by omega), if_neg (Nat.not_lt.2 h)]
  rfl

/-- The 7-bit field of a count below 126 is the count. -/
theorem toNat_low7 {c : BitVec 64} (h : c.toNat < 126) : (c.extractLsb 6 0).toNat = c.toNat := by
  rw [BitVec.extractLsb_toNat, Nat.shiftRight_zero]
  omega

/-- The 16-bit field of a count below 65536 is the count. -/
theorem toNat_low16 {c : BitVec 64} (h : c.toNat < 65536) : (c.extractLsb 15 0).toNat = c.toNat := by
  rw [BitVec.extractLsb_toNat, Nat.shiftRight_zero]
  omega

/-- The 63-bit field of a count below 2^63 is the count. -/
theorem toNat_low63 {c : BitVec 64} (h : c.toNat < 2 ^ 63) : (c.extractLsb 62 0).toNat = c.toNat := by
  rw [BitVec.extractLsb_toNat, Nat.shiftRight_zero]
  omega

/-- The operation of the format that a count selects, with the fields of its frame (R69, R70). -/
def formatOf (fin : Bool) (opc : BitVec 4) (c : BitVec 64) : Instr :=
  if c.toNat < 126 then .frameL7 fin opc (c.extractLsb 6 0)
  else if c.toNat < 65536 then .frameL16 fin opc (c.extractLsb 15 0)
  else .frameL64 fin opc (c.extractLsb 62 0)

/-- The recogniser reads the fields of a header back. -/
theorem recognise_header (fin : Bool) (opc : BitVec 4) {c : BitVec 64} (hc : c.toNat < 2 ^ 63) (rest : List Byte) :
    recognise (header fin opc c ++ rest) = .ok (formatOf fin opc c, rest) := by
  unfold formatOf
  split
  · next h =>
    rw [header_of_lt_126 fin opc h]
    exact recognise_L7 fin opc (by rw [toNat_low7 h]; omega) rest
  · next h =>
    split
    · next h' =>
      rw [header_of_lt_65536 fin opc (Nat.not_lt.1 h) h']
      exact recognise_L16 fin opc _ rest
    · next h' =>
      have hread := recognise_L64 fin opc (c.extractLsb 62 0) rest
      rw [low63_eq c hc] at hread
      rw [header_of_ge_65536 fin opc (Nat.not_lt.1 h')]
      exact hread

end Sys2Proof.Machine

namespace Sys2Proof.Proofs
open Sys2Proof.Machine

/-- Settles O4: the patterns fix different bits, and whatever the recogniser takes has the form of one format. -/
theorem frameRowsAreDisjoint : Obligations.FrameRowsAreDisjoint :=
  ⟨fun W => ⟨not_patternL16_and_patternL64 W, fun ⟨_, hlen, hext⟩ => absurd hlen (Nat.not_le.2 (len7_of_extended hext))⟩,
    fun _ _ _ _ _ h => frameRow_iff_pattern (headerForm_of_recognise h)⟩

/-- Settles O5, format by format. -/
theorem headerIsReadBack : Obligations.HeaderIsReadBack := fun fin opc _ rest hc => recognise_header fin opc hc rest

end Sys2Proof.Proofs
end

section
/-! PROOFS. The laws of a successful ENCODE: its frame is a header, the key and the masked payload, and the header is bytes 0
and 1 with the extension of the count's format (30_encoding R61 to R65, R76, 40_encode_command R90). -/

namespace Sys2Proof.Machine

/-! The header shape of a count, range by range (41_header_packer R105). -/

theorem shape_of_lt_126 {c : BitVec 64} (h : c.toNat < 126) : shape c = ⟨0, 2, c.extractLsb 6 0⟩ := if_pos h

theorem shape_of_lt_65536 {c : BitVec 64} (h : 126 ≤ c.toNat) (h' : c.toNat < 65536) : shape c = ⟨1, 4, 126⟩ := by
  rw [shape, if_neg (Nat.not_lt.2 h), if_pos h']

theorem shape_of_ge_65536 {c : BitVec 64} (h : 65536 ≤ c.toNat) : shape c = ⟨2, 10, 127⟩ := by
  rw [shape, if_neg (by omega), if_neg (Nat.not_lt.2 h)]

/-- The three formats' ranges of a count. -/
theorem count_cases (c : Nat) : c < 126 ∨ (126 ≤ c ∧ c < 65536) ∨ 65536 ≤ c := by omega

/-- A count's length field is the sentinel 126 exactly in the range of format L16, and 127 exactly in that of L64 (R73). -/
theorem shape_l7_sentinel (c : BitVec 64) :
    ((shape c).l7 = 126 → 126 ≤ c.toNat ∧ c.toNat < 65536) ∧ ((shape c).l7 = 127 → 65536 ≤ c.toNat) := by
  rcases count_cases c.toNat with h | ⟨h, h'⟩ | h
  · rw [shape_of_lt_126 h, ← BitVec.toNat_inj, ← BitVec.toNat_inj, toNat_low7 h]
    exact ⟨fun e => absurd e (Nat.ne_of_lt h), fun e => absurd e (Nat.ne_of_lt (Nat.lt_succ_of_lt h))⟩
  · rw [shape_of_lt_65536 h h']
    exact ⟨fun _ => ⟨h, h'⟩, fun e => absurd e (by decide)⟩
  · rw [shape_of_ge_65536 h]
    exact ⟨fun e => absurd e (by decide), fun _ => h⟩

/-- The extended length of a count: nothing, two bytes or eight, the most significant first (R63 to R65). -/
def headerExt (c : BitVec 64) : List Byte :=
  if c.toNat < 126 then [] else if c.toNat < 65536 then split16 (c.extractLsb 15 0) else split64 c

theorem headerExt_of_lt_126 {c : BitVec 64} (h : c.toNat < 126) : headerExt c = [] := if_pos h

theorem headerExt_of_lt_65536 {c : BitVec 64} (h : 126 ≤ c.toNat) (h' : c.toNat < 65536) :
    headerExt c = [c.extractLsb 15 8, c.extractLsb 7 0] := by
  rw [headerExt, if_neg (Nat.not_lt.2 h), if_pos h', split16_low16]

theorem headerExt_of_ge_65536 {c : BitVec 64} (h : 65536 ≤ c.toNat) : headerExt c = split64 c := by
  rw [headerExt, if_neg (by omega), if_neg (Nat.not_lt.2 h)]

/-- A header is byte 0, byte 1 and the extension. -/
theorem header_eq_cons (fin : Bool) (opc : BitVec 4) (c : BitVec 64) :
    header fin opc c = byte0 fin opc :: byte1 (shape c).l7 :: headerExt c := by
  rcases count_cases c.toNat with h | ⟨h, h'⟩ | h
  · rw [header_of_lt_126 fin opc h, shape_of_lt_126 h, headerExt_of_lt_126 h]
  · rw [header_of_lt_65536 fin opc h h', shape_of_lt_65536 h h', headerExt_of_lt_65536 h h', split16_low16]
    rfl
  · rw [header_of_ge_65536 fin opc h, shape_of_ge_65536 h, headerExt_of_ge_65536 h]
    rfl

theorem byte1_inj {l l' : BitVec 7} (h : byte1 l = byte1 l') : l = l' := by rw [← byte1_len7 l, h, byte1_len7]

/-- The 16-bit extension states the count (R64). -/
theorem ext16_value {c : BitVec 64} (h : c.toNat < 65536) :
    (c.extractLsb 15 8).toNat * 256 + (c.extractLsb 7 0).toNat = c.toNat := by
  simp only [BitVec.extractLsb_toNat, Nat.shiftRight_eq_div_pow]
  omega

/-- The eight bytes of a count below 2^63 begin with a clear bit (R74). -/
theorem top_byte_of_lt {c : BitVec 64} (hc : c.toNat < 2 ^ 63) : (c.extractLsb 63 56).getLsbD 7 = false := by
  rw [← low63_eq c hc, top_bit_of_63]

/-- The count of the format that a count selects is that count. -/
theorem formatOf_count (fin : Bool) (opc : BitVec 4) {c : BitVec 64} (hc : c.toNat < 2 ^ 63) :
    (∀ f o n, formatOf fin opc c = .frameL7 f o n → n.toNat = c.toNat) ∧
    (∀ f o n, formatOf fin opc c = .frameL16 f o n → n.toNat = c.toNat) ∧
    (∀ f o n, formatOf fin opc c = .frameL64 f o n → n.toNat = c.toNat) := by
  unfold formatOf
  split
  · next h =>
    refine ⟨fun _ _ _ e => ?_, fun _ _ _ e => (by cases e), fun _ _ _ e => (by cases e)⟩
    cases e; exact toNat_low7 h
  · split
    · next h =>
      refine ⟨fun _ _ _ e => (by cases e), fun _ _ _ e => ?_, fun _ _ _ e => (by cases e)⟩
      cases e; exact toNat_low16 h
    · refine ⟨fun _ _ _ e => (by cases e), fun _ _ _ e => (by cases e), fun _ _ _ e => ?_⟩
      cases e; exact toNat_low63 hc

/-- An ENCODE that left a response of status 0 passed FE.CHECK, and the response is the success response. -/
theorem execEncode_success {s t : State} {r : Request} {d : Delivered} (h : exec (.encode r) s = .next t)
    (hd : t.pending = some d) (hs : d.resp.status = 0) :
    checkRequest s.cfg r = none ∧ d = ⟨r, successResponse r s⟩ := by
  obtain ⟨_, ⟨e, _, rfl⟩ | ⟨hc, _, rfl⟩⟩ := execEncode_next h
  · cases hd
    exact absurd hs (statusCode_ne e)
  · cases hd
    exact ⟨hc, rfl⟩

/-- The frame of a success response is the header and what follows it. -/
theorem successResponse_frame (r : Request) (s : State) :
    (successResponse r s).frame = header r.final (r.opcode.extractLsb 3 0) r.count ++
      (keyBytes s.entropy.answer ++ masked s.entropy.answer (payloadOf s r)) :=
  List.append_assoc _ _ _

/-- The frame of a success response begins with the header of its request. -/
theorem successResponse_take_header (r : Request) (s : State) :
    (successResponse r s).frame.take (hdrlen r.count.toNat) = header r.final (r.opcode.extractLsb 3 0) r.count := by
  rw [successResponse_frame]
  exact List.take_left' (header_length _ _ _)

/-- Where byte 1 of a frame is `0xFE`, its bytes 2 and 3 state a count of the L16 range (R64, R76). -/
theorem ext16_of_byte1_FE (fin : Bool) (opc : BitVec 4) (c : BitVec 64) (rest : List Byte)
    (h : (header fin opc c ++ rest).getD 1 0 = 0xFE#8) :
    126 ≤ ((header fin opc c ++ rest).getD 2 0).toNat * 256 + ((header fin opc c ++ rest).getD 3 0).toNat := by
  rw [header_eq_cons] at h ⊢
  obtain ⟨hge, hlt⟩ := (shape_l7_sentinel c).1 (byte1_inj (l' := 126#7) h)
  rw [headerExt_of_lt_65536 hge hlt]
  exact hge.trans (ext16_value hlt).ge

/-- Where byte 1 of a frame is `0xFF`, its bytes 2 to 9 state a count of the L64 range, with a clear top bit (R65, R74,
R76). -/
theorem ext64_of_byte1_FF (fin : Bool) (opc : BitVec 4) {c : BitVec 64} (hc : c.toNat < 2 ^ 63) (rest : List Byte)
    (h : (header fin opc c ++ rest).getD 1 0 = 0xFF#8) :
    ((header fin opc c ++ rest).getD 2 0).getLsbD 7 = false ∧
    65536 ≤ (join64 ((header fin opc c ++ rest).getD 2 0) ((header fin opc c ++ rest).getD 3 0)
      ((header fin opc c ++ rest).getD 4 0) ((header fin opc c ++ rest).getD 5 0)
      ((header fin opc c ++ rest).getD 6 0) ((header fin opc c ++ rest).getD 7 0)
      ((header fin opc c ++ rest).getD 8 0) ((header fin opc c ++ rest).getD 9 0)).toNat := by
  rw [header_eq_cons] at h ⊢
  have hge := (shape_l7_sentinel c).2 (byte1_inj (l' := 127#7) h)
  rw [headerExt_of_ge_65536 hge]
  exact ⟨top_byte_of_lt hc, hge.trans (congrArg BitVec.toNat (join64_split64 c)).ge⟩

end Sys2Proof.Machine

namespace Sys2Proof.Proofs
open Sys2Proof.Machine

/-- Settles O22: length and header of the success response are functions of FIN, opcode and count. -/
theorem layoutLaw : Obligations.LayoutLaw := by
  intro s t s' t' r r' d d' h hd hs h' hd' hs' hfin hopc hcnt
  obtain ⟨_, rfl⟩ := execEncode_success h hd hs
  obtain ⟨_, rfl⟩ := execEncode_success h' hd' hs'
  rw [successResponse_take_header, successResponse_take_header, hfin, hopc, hcnt]
  exact ⟨congrArg (fun c : BitVec 64 => BitVec.ofNat 64 (framelen c.toNat)) hcnt, rfl⟩

/-- Settles O25: the frame begins with the header of a count below 2^63, whose bytes state it in the format of its range. -/
theorem neverProducedPatterns : Obligations.NeverProducedPatterns := by
  intro s t r d h hd hs
  obtain ⟨hcheck, rfl⟩ := execEncode_success h hd hs
  have hc := count_lt_of_check hcheck
  have hlen := successResponse_frame_length r s
  simp only [successResponse_frame] at hlen ⊢
  obtain ⟨h7, h16, h64⟩ := formatOf_count r.final (r.opcode.extractLsb 3 0) hc
  refine ⟨?_, ?_, ext16_of_byte1_FE _ _ _ _, ext64_of_byte1_FF _ _ hc _, _, _, recognise_header _ _ hc _,
    fun f o n e => ?_, fun f o n e => ?_, fun f o n e => ?_⟩
  · rw [header_eq_cons]
    exact Laws.FixedBits.byte0_and_70 _ _
  · rw [header_eq_cons]
    exact byte1_mask _
  · rw [hlen, h7 f o n e]
  · rw [hlen, h16 f o n e]
  · rw [hlen, h64 f o n e]

/-- Settles O39: byte 0, byte 1 and the extension of the header, then key and masked payload, range by range of the count. -/
theorem encodeChoosesTheFormat : Obligations.EncodeChoosesTheFormat := by
  intro s t r d h hd hs
  obtain ⟨hcheck, rfl⟩ := execEncode_success h hd hs
  have hc := count_lt_of_check hcheck
  obtain ⟨hopcode, -, -⟩ := checkRequest_none hcheck
  have hlen : (successResponse r s).frame.length = hdrlen r.count.toNat + 4 + r.count.toNat :=
    successResponse_frame_length r s
  dsimp only
  refine ⟨byte0 r.final (r.opcode.extractLsb 3 0), byte1 (shape r.count).l7, headerExt r.count,
    masked s.entropy.answer (payloadOf s r), s.entropy.answer, ?_, ?_, byte0_fin _ _, byte0_rsv _ _, ?_, fun hlt => ?_,
    fun hge hlt => ?_, fun hge => ?_⟩
  · show header r.final (r.opcode.extractLsb 3 0) r.count ++ _ ++ _ = _
    rw [header_eq_cons]
    rfl
  · rw [masked_length, payloadOf, Space.slice_length]
  · rw [byte0_opcode, BitVec.extractLsb_toNat, Nat.shiftRight_zero]
    omega
  · rw [hdrlen_of_lt_126 hlt] at hlen
    refine ⟨headerExt_of_lt_126 hlt, byte1_mask _, ?_, by omega, by omega, by omega⟩
    rw [byte1_len7, shape_of_lt_126 hlt, toNat_low7 hlt]
  · rw [hdrlen_of_lt_65536 hge hlt] at hlen
    refine ⟨headerExt_of_lt_65536 hge hlt, ?_, by omega, by omega, by omega⟩
    rw [shape_of_lt_65536 hge hlt]
    rfl
  · rw [hdrlen_of_ge_65536 hge] at hlen
    rw [headerExt_of_ge_65536 hge]
    refine ⟨rfl, split64_byte r.count, top_byte_of_lt hc, ?_, by omega, by omega⟩
    rw [shape_of_ge_65536 hge]
    rfl

end Sys2Proof.Proofs
end

section
/-! PROOFS. The frame formats as operations (30_encoding R63 to R65, log 11): where the count selects the format, OUT holds the
frame. -/

namespace Sys2Proof.Machine

/-- A format the count does not select is not performed. -/
theorem frameAs_notSelected {sel : BitVec 2} {cnt : BitVec 64} (h : (shape cnt).sel ≠ sel) (fin : Bool)
    (opc : BitVec 4) (s : State) : frameAs sel fin opc cnt s = .next s := if_neg h

/-- A format that a count of `n` selects builds its frame from the payload of the command in progress: OUT holds it, one draw
was made, and besides the registers of the frame nothing else is changed. -/
theorem frameAs_selected {cnt : BitVec 64} {n : Nat} {sel : BitVec 2} {h : BitVec 4} {l7 : BitVec 7} {s : State}
    (hshape : shape cnt = ⟨sel, h, l7⟩) (hcnt : cnt.toNat = n) (hn : n < 2 ^ 63) (ha : s.entropy.answering = true)
    (hp : PayloadInside s n) (fin : Bool) (opc : BitVec 4) :
    ∃ t f, frameAs sel fin opc cnt s = .next t ∧ t.out = some f ∧
      f.bytes = header fin opc cnt ++ keyBytes s.entropy.answer ++ masked s.entropy.answer (payloadAt s n) ∧
      f.len = hdrlen n + 4 + n ∧
      t = { s with
        out := some f, entropy := s.entropy.advance
        regs := { s.regs with
          finr := fin, opc := opc, cnt := cnt, sel := sel, h := h, l7 := l7, key := s.entropy.answer
          idx := t.regs.idx, pos := t.regs.pos } } := by
  subst hcnt
  have hexec := frameAs_eq sel fin opc cnt s
  have hlatched : formatLatched fin opc cnt s =
      { s with regs := { s.regs with finr := fin, opc := opc, cnt := cnt, sel := sel, h := h, l7 := l7 } } := by
    rw [formatLatched, hshape]
  obtain ⟨i, p, f, hbuild, hlen, _, hbytes⟩ :=
    buildFrame_spec (formatLatched fin opc cnt s) hn ⟨rfl, rfl, rfl⟩ ha hp
  rw [if_pos (congrArg Shape.sel hshape), hbuild, hlatched] at hexec
  exact ⟨_, f, hexec, rfl, hbytes, hlen, rfl⟩

end Sys2Proof.Machine

namespace Sys2Proof.Proofs
open Sys2Proof.Machine

/-- Settles O40: a field of at most 125 is a count that selects format L7, and the frame is built; 126 and 127 are counts of
format L16, which is not this one. -/
theorem formatL7 : Obligations.FormatL7 := by
  intro fin opc len s
  have hcnt : (len.setWidth 64).toNat = len.toNat := BitVec.toNat_setWidth_of_le (by decide)
  refine ⟨fun hlen ha hp => ?_, fun hlen => ?_⟩
  · have hlt : (len.setWidth 64).toNat < 126 := by omega
    have hl7 : (len.setWidth 64).extractLsb 6 0 = len := BitVec.eq_of_toNat_eq ((toNat_low7 hlt).trans hcnt)
    have hshape := shape_of_lt_126 hlt
    rw [hl7] at hshape
    obtain ⟨t, f, hexec, hout, hbytes, hflen, ht⟩ := frameAs_selected hshape hcnt (by omega) ha hp fin opc
    rw [header_of_lt_126 fin opc hlt, hl7] at hbytes
    rw [hdrlen_of_lt_126 (by omega)] at hflen
    exact ⟨t, f, hexec, hout, hbytes, by omega, by omega, by omega, ht⟩
  · have hshape := shape_of_lt_65536 (c := len.setWidth 64) (by omega) (by omega)
    exact frameAs_notSelected (by simp [hshape]) fin opc s

/-- Settles O41: a count of at least 126 in 16 bits selects format L16; a smaller one selects L7. -/
theorem formatL16 : Obligations.FormatL16 := by
  intro fin opc n s
  have hcnt : (n.setWidth 64).toNat = n.toNat := BitVec.toNat_setWidth_of_le (by decide)
  refine ⟨fun hge ha hp => ?_, fun hlt => ?_⟩
  · have hge' : 126 ≤ (n.setWidth 64).toNat := by omega
    have hlt' : (n.setWidth 64).toNat < 65536 := by omega
    have hlow : (n.setWidth 64).extractLsb 15 0 = n := BitVec.eq_of_toNat_eq ((toNat_low16 hlt').trans hcnt)
    obtain ⟨t, f, hexec, hout, hbytes, hflen, ht⟩ :=
      frameAs_selected (shape_of_lt_65536 hge' hlt') hcnt (by omega) ha hp fin opc
    rw [header_of_lt_65536 fin opc hge' hlt', hlow] at hbytes
    rw [hdrlen_of_lt_65536 hge (by omega)] at hflen
    exact ⟨t, f, hexec, hout, hbytes, by omega, by omega, by omega, ht⟩
  · have hshape := shape_of_lt_126 (c := n.setWidth 64) (by omega)
    exact frameAs_notSelected (by simp [hshape]) fin opc s

/-- Settles O42: a count of at least 65536 in 63 bits selects format L64, whose extension is the count in eight bytes; a
smaller one selects L7 or L16. -/
theorem formatL64 : Obligations.FormatL64 := by
  intro fin opc n s
  have hcnt : (n.setWidth 64).toNat = n.toNat := BitVec.toNat_setWidth_of_le (by decide)
  refine ⟨fun hge ha hp => ?_, fun hlt => ?_⟩
  · have hge' : 65536 ≤ (n.setWidth 64).toNat := by omega
    obtain ⟨t, f, hexec, hout, hbytes, hflen, ht⟩ :=
      frameAs_selected (shape_of_ge_65536 hge') hcnt (by omega) ha hp fin opc
    rw [header_of_ge_65536 fin opc hge'] at hbytes
    rw [hdrlen_of_ge_65536 hge] at hflen
    exact ⟨t, f, split64 (n.setWidth 64), hexec, hout, hbytes, rfl, fun _ hj => split64_setWidth_byte n hj,
      top_bit_of_63 n, by omega, by omega, ht⟩
  · refine frameAs_notSelected ?_ fin opc s
    rcases count_cases (n.setWidth 64).toNat with h | ⟨h, h'⟩ | h
    · simp [shape_of_lt_126 h]
    · simp [shape_of_lt_65536 h h']
    · omega

end Sys2Proof.Proofs
end

section
/-! PROOFS. From an idle block whose waiting requests are all true, every step serves one of them, and an ENCODE line of a
host completes (30_encoding R79, 60_exceptions R148). -/

namespace Sys2Proof.Machine

/-- ENCODE of a request with its true length ends with a response while the entropy source answers; besides the source nothing
of the hosts' side changes (R91, R141). -/
theorem execEncode_answers {s : State} {r : Request} (hl : TrueLength s r) (ha : s.entropy.answering = true) :
    ∃ resp e, execEncode r s = .next (endedWith r resp { s with entropy := e }) ∧ e.answering = true := by
  have hlen := (lengthTrue_iff s r).2 hl
  cases hc : checkRequest s.cfg r with
  | none => exact ⟨_, _, execEncode_eq_encoded hlen hc ha, ha⟩
  | some e => exact ⟨_, s.entropy, execEncode_error hlen hc, ha⟩

/-- The word taken and those that go on waiting are those that waited (R148). -/
theorem takeWord_perm {s u : State} {w : OpWord} (h : takeWord s = some (w, u)) : s.inbox.Perm (w :: u.inbox) := by
  unfold takeWord at h
  split at h
  · cases h
  · next v hv => cases h; rw [hv]
  · next v v' vs hv =>
    have hk : s.arbiter.pick (vs.length + 2) < (v :: v' :: vs).length := s.arbiter.pick_lt (by omega)
    cases h
    rw [hv, List.getD_eq_getElem (hn := hk)]
    exact (List.getElem_cons_eraseIdx_perm hk).symm

/-- Where something waits, a word is taken. -/
theorem exists_takeWord {s : State} (h : s.inbox ≠ []) : ∃ w u, takeWord s = some (w, u) := by
  unfold takeWord
  split
  · contradiction
  · exact ⟨_, _, rfl⟩
  · exact ⟨_, _, rfl⟩

/-- An idle block that can serve all that waits: requests with their true lengths, and an entropy source that answers. -/
structure Serviceable (s : State) : Prop where
  idle : Idle s
  answering : s.entropy.answering = true
  requests : ∀ w ∈ s.inbox, ∃ r, w = .request r ∧ TrueLength s r

/-- From `s` to `t` the requests of `ds` were served, each with its response; the rest still wait, and can be served. -/
structure Served (s t : State) (ds : List Delivered) : Prop where
  serviceable : Serviceable t
  cfg : t.cfg = s.cfg
  src : t.src = s.src
  delivered : t.delivered = s.delivered ++ ds
  perm : s.inbox.Perm (ds.map (fun d => OpWord.request d.req) ++ t.inbox)

theorem Served.refl {s : State} (hs : Serviceable s) : Served s s [] :=
  ⟨hs, rfl, rfl, (List.append_nil _).symm, .refl _⟩

theorem Served.trans {s t u : State} {ds es : List Delivered} (h : Served s t ds) (h' : Served t u es) :
    Served s u (ds ++ es) where
  serviceable := h'.serviceable
  cfg := h'.cfg.trans h.cfg
  src := h'.src.trans h.src
  delivered := by rw [h'.delivered, h.delivered, List.append_assoc]
  perm := by
    rw [List.map_append, List.append_assoc]
    exact h.perm.trans (h'.perm.append_left _)

/-- A step serves one of the waiting requests. -/
theorem step_serves {s : State} (hs : Serviceable s) (hne : s.inbox ≠ []) : ∃ t d, step s = .next t ∧ Served s t [d] := by
  obtain ⟨w, u, htake⟩ := exists_takeWord hne
  have hperm := takeWord_perm htake
  obtain ⟨hw, _, hrest, ws, a, rfl⟩ := takeWord_waited htake
  obtain ⟨r, rfl, hlen⟩ := hs.requests w hw
  obtain ⟨resp, e, hexec, he⟩ :=
    execEncode_answers (s := { s with inbox := ws, arbiter := a }) (r := r) hlen hs.answering
  have hdec : decode (.request r) = .ok (.encode r) := decode_request_of_legal (decide_eq_true hlen.2)
  have hstep : step s = .next (deliver (endedWith r resp { s with inbox := ws, arbiter := a, entropy := e })) := by
    simp only [step, htake, hdec, exec, hexec, andThen_next]
  exact ⟨_, ⟨r, resp⟩, hstep, ⟨⟨rfl, rfl, rfl, rfl⟩, he, fun x hx => hs.requests x (hrest x hx)⟩, rfl, rfl, rfl, hperm⟩

theorem stepUntil_of_done {done : State → Bool} {s : State} (h : done s = true) (n : Nat) :
    stepUntil done n s = some s := by
  cases n <;> rw [stepUntil, if_pos h]

theorem stepUntil_of_step {done : State → Bool} {s t : State} (h : done s = false) (ht : step s = .next t) (n : Nat) :
    stepUntil done (n + 1) s = stepUntil done n t := by
  rw [stepUntil, h, ht]
  rfl

/-- Steps until a condition that holds at the latest when nothing waits: as many as requests wait are enough, since each serves
one. -/
theorem stepUntil_serves {done : State → Bool} (n : Nat) {s : State} (hs : Serviceable s) (hn : s.inbox.length = n)
    (hdone : ∀ t, t.cfg = s.cfg → t.inbox = [] → done t = true) :
    ∃ t ds, stepUntil done n s = some t ∧ done t = true ∧ Served s t ds := by
  induction n generalizing s with
  | zero =>
    have hd := hdone s rfl (List.length_eq_zero_iff.1 hn)
    exact ⟨s, [], stepUntil_of_done hd 0, hd, .refl hs⟩
  | succ n ih =>
    cases hd : done s with
    | true => exact ⟨s, [], stepUntil_of_done hd _, hd, .refl hs⟩
    | false =>
      obtain ⟨t, d, hstep, hserved⟩ := step_serves hs (by rintro h; rw [h] at hn; cases hn)
      have hlen : t.inbox.length = n := by
        have := hserved.perm.length_eq
        simp only [List.map_cons, List.map_nil, List.singleton_append, List.length_cons] at this
        omega
      obtain ⟨u, ds, hrun, hu, hserved'⟩ :=
        ih hserved.serviceable hlen fun v hv => hdone v (hv.trans hserved.cfg)
      exact ⟨u, d :: ds, (stepUntil_of_step hd hstep n).trans hrun, hu, hserved.trans hserved'⟩

/-- A request that waited and waits no more was served. -/
theorem Served.of_not_mem {s t : State} {ds : List Delivered} {r : Request} (h : Served s t ds)
    (hr : OpWord.request r ∈ s.inbox) (hr' : OpWord.request r ∉ t.inbox) : ∃ d ∈ ds, d.req = r := by
  rcases List.mem_append.1 (h.perm.mem_iff.1 hr) with hmem | hmem
  · obtain ⟨d, hd, e⟩ := List.mem_map.1 hmem
    exact ⟨d, hd, OpWord.request.inj e⟩
  · exact absurd hmem hr'

/-- A request presented to a block that can serve it is one more that waits. -/
theorem Serviceable.presented {s : State} {r : Request} (hs : Serviceable s) (hr : TrueLength s r) :
    Serviceable { s with inbox := s.inbox ++ [.request r] } where
  idle := hs.idle
  answering := hs.answering
  requests w hw := by
    rcases List.mem_append.1 hw with hw | hw
    · exact hs.requests w hw
    · exact ⟨r, List.mem_singleton.1 hw, hr⟩

theorem hasRoom_iff (s : State) : hasRoom s = true ↔ s.inbox.length < s.cfg.nReq := decide_eq_true_iff

theorem isServed_iff (r : Request) (s : State) : isServed r s = true ↔ OpWord.request r ∉ s.inbox := decide_eq_true_iff

/-- A request performed by a host: presented once there is room, and served (R79). -/
theorem performRequest_serves {s : State} {r : Request} (hs : Serviceable s) (hreq : 1 ≤ s.cfg.nReq)
    (hr : TrueLength s r) :
    ∃ t d, performRequest r s = some t ∧ Idle t ∧ OpWord.request r ∉ t.inbox ∧
      d ∈ t.delivered.drop s.delivered.length ∧ d.req = r := by
  obtain ⟨u, ds, hwait, hroom, hu⟩ := stepUntil_serves (done := hasRoom) _ hs rfl fun t hcfg hnil =>
    (hasRoom_iff t).2 (by rw [hcfg, hnil]; exact hreq)
  have hru : TrueLength u r := by rw [TrueLength, bufferOf, hu.src]; exact hr
  obtain ⟨t, es, hserve, hdone, ht⟩ := stepUntil_serves (done := isServed r) _ (hu.serviceable.presented hru) rfl
    fun t _ hnil => (isServed_iff r t).2 (by rw [hnil]; exact List.not_mem_nil)
  have hgone := (isServed_iff r t).1 hdone
  obtain ⟨d, hd, hdr⟩ := ht.of_not_mem (List.mem_append_right _ (List.mem_singleton_self _)) hgone
  refine ⟨t, d, ?_, ht.serviceable.idle, hgone, ?_, hdr⟩
  · simp only [performRequest, hwait, present_of_room ((hasRoom_iff u).1 hroom), hserve]
  · have hlist : t.delivered = s.delivered ++ (ds ++ es) := by
      rw [ht.delivered, ← List.append_assoc, ← hu.delivered]
    rw [hlist, List.drop_left]
    exact List.mem_append_right _ hd

/-- The request of an ENCODE line states the true length of its buffer (R167). -/
theorem requestOf_trueLength {s : State} {buf : Nat} (h : (s.src.getD buf { len := 0, cells := [] }).len < 2 ^ 63)
    (host : Nat) (op off cnt : Int) (fin : Option Bool) : TrueLength s (requestOf host buf op off cnt fin s) := by
  have hlen : (requestOf host buf op off cnt fin s).buflen.toNat = (s.src.getD buf { len := 0, cells := [] }).len :=
    (BitVec.toNat_ofNat _ _).trans (Nat.mod_eq_of_lt (by omega))
  exact ⟨hlen, hlen ▸ h⟩

end Sys2Proof.Machine

namespace Sys2Proof.Proofs
open Sys2Proof.Machine

/-- Settles O54: each step serves one of the requests that wait, so there is room in time, and the line's own request is served in
time. -/
theorem eachLineCompletesItsCommand : Obligations.EachLineCompletesItsCommand :=
  fun host _ op off cnt fin _ hidle ha hreq hwait hlen =>
    performRequest_serves ⟨hidle, ha, hwait⟩ hreq (requestOf_trueLength hlen host op off cnt fin)

end Sys2Proof.Proofs
end

section
/-! PROOFS. Words written out, the draw, and an operand left out. -/

namespace Sys2Proof.Proofs
open Sys2Proof.Machine

/-- Settles O1: each word evaluates to its operation. -/
theorem tableWordsAreRead : Obligations.TableWordsAreRead := by
  unfold Obligations.TableWordsAreRead
  decide

/-- Settles O32: the flag of the entropy source decides whether the draw is made, and a pinned answer is the next one. -/
theorem keygenDrawsOnce : Obligations.KeygenDrawsOnce := by
  refine ⟨fun _ ha => if_pos ha, fun s k ks hpin => ?_, fun _ ha => if_neg (Bool.eq_false_iff.1 ha)⟩
  simp only [Entropy.answer, Entropy.advance, hpin, List.tail_cons, and_self]

/-- Settles O51: the default of the fifth operand is `true`. -/
theorem omittedOperandMeansFinal : Obligations.OmittedOperandMeansFinal := fun _ _ _ _ _ _ => ⟨rfl, rfl⟩

end Sys2Proof.Proofs
end

section
/-! PROOFS. What a step is made of: with nothing waiting it changes nothing, else the waiting word is decoded, performed and its
response delivered (40_encode_command R85, R91, R94). -/

namespace Sys2Proof.Machine

/-- With nothing waiting no word is taken. -/
theorem takeWord_of_nil {s : State} (h : s.inbox = []) : takeWord s = none := by simp only [takeWord, h]

/-- The only word waiting is taken, and no choice is made (log 7). -/
theorem takeWord_of_singleton {s : State} {w : OpWord} (h : s.inbox = [w]) :
    takeWord s = some (w, { s with inbox := [], arbiter := s.arbiter.cleared }) := by simp only [takeWord, h]

theorem step_of_nil {s : State} (h : s.inbox = []) : step s = .next s := by simp only [step, takeWord_of_nil h]

theorem step_of_decode_ok {s u : State} {w : OpWord} {i : Instr} (htake : takeWord s = some (w, u))
    (hdec : decode w = .ok i) : step s = andThen (exec i u) fun t => .next (deliver t) := by
  simp only [step, htake, hdec]

theorem step_of_decode_error {s u : State} {w : OpWord} {e : DecodeError} (htake : takeWord s = some (w, u))
    (hdec : decode w = .error e) : step s = .refused (.undecodable e) := by simp only [step, htake, hdec]

end Sys2Proof.Machine

namespace Sys2Proof.Proofs
open Sys2Proof.Machine

/-- Settles O7: no word is taken from an empty inbox. -/
theorem idleStepChangesNothing : Obligations.IdleStepChangesNothing := fun _ => step_of_nil

/-- Settles O8, by what the taken word decodes to. -/
theorem stepRunsTheDecodedOperation : Obligations.StepRunsTheDecodedOperation :=
  ⟨fun _ _ _ _ => step_of_decode_ok, fun _ _ _ _ => step_of_decode_error, fun _ _ => takeWord_of_singleton⟩

end Sys2Proof.Proofs
end

section
/-! PROOFS. Every request that waits with its true length has its response: the one alone in one step, `n` of them in `n` steps
(40_encode_command R91, R94, 60_exceptions R148). -/

namespace Sys2Proof.Machine

/-- The response an ENCODE leaves pending is whole, a frame (R91) or an error (R141). -/
theorem execEncode_pending_sound {r : Request} {s t : State} {d : Delivered} (h : execEncode r s = .next t)
    (hd : t.pending = some d) : ResponseSound d := by
  obtain ⟨_, ⟨e, _, rfl⟩ | ⟨hc, _, rfl⟩⟩ := execEncode_next h <;> cases hd
  · exact errorResponse_sound e r
  · exact successResponse_sound s hc

/-- The step that takes a request with its true length performs its ENCODE and delivers the whole response. -/
theorem step_answers {s u : State} {r : Request} (htake : takeWord s = some (.request r, u)) (hl : TrueLength u r)
    (ha : u.entropy.answering = true) :
    ∃ resp e, step s = .next (deliver (endedWith r resp { u with entropy := e })) ∧ ResponseSound ⟨r, resp⟩ := by
  obtain ⟨resp, e, hexec, _⟩ := execEncode_answers hl ha
  refine ⟨resp, e, ?_, execEncode_pending_sound hexec rfl⟩
  rw [step_of_decode_ok htake (decode_request_of_legal (decide_eq_true hl.2)), exec, hexec, andThen_next]

/-- A run of `n + 1` steps whose first step has a next state goes on from there. -/
theorem run_succ_of_step {s t : State} (h : step s = .next t) (n : Nat) :
    Host.Core.run core (n + 1) s = Host.Core.run core n t := by
  have hcore : core.step s = .next t := h
  simp only [Host.Core.run, hcore]

/-- As many steps as requests wait serve them all: each step serves one, and the rest can still be served. -/
theorem run_serves (n : Nat) {s : State} (hs : Serviceable s) (hn : s.inbox.length = n) :
    ∃ t ds, Host.Core.run core n s = .next t ∧ t.inbox = [] ∧ Served s t ds := by
  induction n generalizing s with
  | zero => exact ⟨s, [], rfl, List.length_eq_zero_iff.1 hn, .refl hs⟩
  | succ n ih =>
    obtain ⟨t, d, hstep, hserved⟩ := step_serves hs (List.ne_nil_of_length_eq_add_one hn)
    have hlen : s.inbox.length = t.inbox.length + 1 := hserved.perm.length_eq
    obtain ⟨u, ds, hrun, hnil, hserved'⟩ := ih hserved.serviceable (by omega)
    exact ⟨u, d :: ds, (run_succ_of_step hstep n).trans hrun, hnil, hserved.trans hserved'⟩

end Sys2Proof.Machine

namespace Sys2Proof.Proofs
open Sys2Proof.Machine

/-- Settles O18, by induction on the number of waiting requests: each step serves one of them. -/
theorem everyWaitingRequestIsAnswered : Obligations.EveryWaitingRequestIsAnswered := by
  intro s hidle ha hwait
  obtain ⟨t, ds, hrun, hnil, hserved⟩ := run_serves _ ⟨hidle, ha, hwait⟩ rfl
  have hperm := hserved.perm
  rw [hnil, List.append_nil] at hperm
  exact ⟨t, ds, hrun, hserved.serviceable.idle, hnil, hserved.delivered, hperm.symm⟩

/-- Settles O17: the step takes the one request, and its ENCODE ends with a whole response, which is delivered. -/
theorem oneResponseForEachRequest : Obligations.OneResponseForEachRequest := by
  intro s r hwait _ hl ha
  obtain ⟨resp, e, hstep, hsound⟩ := step_answers (takeWord_of_singleton hwait) hl ha
  exact ⟨_, ⟨r, resp⟩, hstep, rfl, rfl, hsound, ⟨rfl, rfl, rfl, rfl⟩, rfl, rfl, rfl⟩

end Sys2Proof.Proofs
end

section
/-! PROOFS. The three tests of FE.CHECK, and what it does with a request of true length (40_encode_command R86, 60_exceptions
R135 to R137, R140). -/

namespace Sys2Proof.Machine

/-- The opcode is tested first (R136). -/
theorem checkRequest_invalidOpcode (c : Config) {r : Request} (h : 15 < r.opcode.toNat) :
    checkRequest c r = some .invalidOpcode := by rw [checkRequest_eq, if_pos h]

/-- The size is tested once the opcode is legal (R137). -/
theorem checkRequest_sizeError {c : Config} {r : Request} (hop : r.opcode.toNat ≤ 15)
    (h : c.maxCount.val < r.count.toNat) : checkRequest c r = some .sizeError := by
  rw [checkRequest_eq, if_neg (Nat.not_lt.2 hop), if_pos h]

/-- The range is tested last (R135). -/
theorem checkRequest_invalidRange {c : Config} {r : Request} (hop : r.opcode.toNat ≤ 15)
    (hcount : r.count.toNat ≤ c.maxCount.val) (h : r.buflen.toNat < r.offset.toNat + r.count.toNat) :
    checkRequest c r = some .invalidRange := by
  rw [checkRequest_eq, if_neg (Nat.not_lt.2 hop), if_neg (Nat.not_lt.2 hcount), if_pos h]

/-- FE.CHECK of a request that fails a test ends the command with the error (R141). -/
theorem execFeCheck_endsWith_error {s : State} {r : Request} {e : Err} (hl : lengthTrue s r = true)
    (hc : checkRequest s.cfg r = some e) : EndsWith r (errorResponse e) s (execFeCheck r s) :=
  ⟨Regs.idle, checkThen_error hl hc .next⟩

/-- FE.CHECK of a request that passes latches its operands. -/
theorem execFeCheck_latches {s : State} {r : Request} (hl : lengthTrue s r = true)
    (hc : checkRequest s.cfg r = none) : execFeCheck r s = .next (latchRequest r s) :=
  checkThen_passes hl hc .next

end Sys2Proof.Machine

namespace Sys2Proof.Proofs
open Sys2Proof.Machine

/-- Settles O15: the first test that fails names the error, and a request that fails none is latched. -/
theorem checkLatchesOrRaises : Obligations.CheckLatchesOrRaises := by
  intro s r hlen
  have hl : lengthTrue s r = true := (lengthTrue_iff s r).2 hlen
  refine ⟨fun hop => ?_, fun hop hcount => ?_, fun hop hcount hrange => ?_, fun hop hcount hrange => ?_⟩
  · exact execFeCheck_endsWith_error hl (checkRequest_invalidOpcode s.cfg hop)
  · exact execFeCheck_endsWith_error hl (checkRequest_sizeError hop hcount)
  · exact execFeCheck_endsWith_error hl (checkRequest_invalidRange hop hcount hrange)
  · exact execFeCheck_latches hl ((checkRequest_eq_none_iff s r).2 ⟨hop, hcount, hrange⟩)

end Sys2Proof.Proofs
end

section
/-! PROOFS. What the frame of a successful ENCODE holds: its length, the fields of bytes 0 and 1, the key and the masked payload;
and what a response depends on (40_encode_command R89, R92, R96 to R99). -/

namespace Sys2Proof

/-! The fields of byte 0 as the masks of R96 take them. -/

theorem byte0_and_80 : ∀ fin opc, byte0 fin opc &&& 0x80#8 ≠ 0 ↔ fin = true := by decide
theorem byte0_and_0F : ∀ fin opc, (byte0 fin opc &&& 0x0F#8).toNat = opc.toNat := by decide

end Sys2Proof

namespace Sys2Proof.Machine

/-- The four bits latched of a legal opcode are the opcode (R86). -/
theorem toNat_low4 {o : BitVec 8} (h : o.toNat ≤ 15) : (o.extractLsb 3 0).toNat = o.toNat := by
  rw [BitVec.extractLsb_toNat, Nat.shiftRight_zero]
  omega

/-- Byte 0 of a legal opcode is FIN and the opcode itself (R61). -/
theorem byte0_low4 (fin : Bool) {o : BitVec 8} (h : o.toNat ≤ 15) :
    byte0 fin (o.extractLsb 3 0) = (if fin then 0x80#8 else 0x00#8) ||| o := by
  have hlow : (o.extractLsb 3 0).setWidth 8 = o :=
    BitVec.eq_of_toNat_eq ((BitVec.toNat_setWidth_of_le (by decide)).trans (toNat_low4 h))
  rw [byte0, hlow]

/-- Byte `j` of the key field is key byte `j` (R121). -/
theorem keyBytes_getD (k : Key) {j : Nat} (h : j < 4) : (keyBytes k).getD j 0 = keyLane k j := by
  interval_cases j <;> rfl

/-- The key field of a success response follows the header (R60). -/
theorem successResponse_key_getD (r : Request) (s : State) {j : Nat} (h : j < 4) :
    (successResponse r s).frame.getD (hdrlen r.count.toNat + j) 0 = keyLane s.entropy.answer j := by
  have hhdr := header_length r.final (r.opcode.extractLsb 3 0) r.count
  rw [successResponse_frame, List.getD_append_right _ _ _ _ (by omega), hhdr, Nat.add_sub_cancel_left,
    List.getD_append _ _ _ _ h, keyBytes_getD _ h]

/-- The masked payload of a success response follows the key field (R60, R125). -/
theorem successResponse_payload_getD (r : Request) (s : State) {i : Nat} (h : i < r.count.toNat) :
    (successResponse r s).frame.getD (hdrlen r.count.toNat + 4 + i) 0 =
      (bufferOf s r).read (r.offset.toNat + i) ^^^ keyLane s.entropy.answer i := by
  have hpay : i < (masked s.entropy.answer (payloadOf s r)).length := by simpa [payloadOf] using h
  have hskip : (header r.final (r.opcode.extractLsb 3 0) r.count ++ keyBytes s.entropy.answer).length =
      hdrlen r.count.toNat + 4 := by rw [List.length_append, header_length, keyBytes_length]
  rw [successResponse, frameOf, List.getD_append_right _ _ _ _ (by omega), hskip, Nat.add_sub_cancel_left,
    List.getD_eq_getElem (hn := hpay), masked_getElem]
  exact congrArg (· ^^^ _) (Space.slice_getElem _ _ _ _ _)

/-- The three tests look at MAX_COUNT and the request only (R86). -/
theorem checkRequest_congr {c c' : Config} (h : c.maxCount = c'.maxCount) (r : Request) :
    checkRequest c r = checkRequest c' r := by rw [checkRequest_eq, checkRequest_eq, h]

/-- A success response is a function of the request, its payload and the drawn key (R98). -/
theorem successResponse_congr {s s' : State} {r : Request} (hkey : s.entropy.answer = s'.entropy.answer)
    (hpay : payloadOf s r = payloadOf s' r) : successResponse r s = successResponse r s' := by
  rw [successResponse, successResponse, hkey, hpay]

/-- The frame of an empty payload: bytes 0 and 1 and the key (R99). -/
theorem successResponse_of_count_zero {r : Request} (s : State) (hop : r.opcode.toNat ≤ 15) (h : r.count = 0) :
    successResponse r s =
      ⟨0, 6, ((if r.final then 0x80#8 else 0x00#8) ||| r.opcode) :: 0x80 :: keyBytes s.entropy.answer⟩ := by
  rw [successResponse, payloadOf, frameOf, h, ← byte0_low4 r.final hop]
  rfl

end Sys2Proof.Machine

namespace Sys2Proof.Proofs
open Sys2Proof.Machine

/-- Settles O19: the response is the success response, whose frame is header, key and masked payload. -/
theorem frameLengthLaw : Obligations.FrameLengthLaw := by
  intro s t r d h hd hs
  obtain ⟨hc, rfl⟩ := execEncode_success h hd hs
  exact ⟨successResponse_len s hc, successResponse_frame_length r s, rfl⟩

/-- Settles O20: the frame begins with bytes 0 and 1 of its header, and the opcode has four bits. -/
theorem finOpcodeAndMaskLaw : Obligations.FinOpcodeAndMaskLaw := by
  intro s t r d h hd hs
  obtain ⟨hc, rfl⟩ := execEncode_success h hd hs
  obtain ⟨hop, _, _⟩ := checkRequest_none hc
  have hframe := successResponse_frame r s
  rw [header_eq_cons] at hframe
  exact ⟨_, _, _, hframe, byte0_and_80 _ _, (byte0_and_0F _ _).trans (toNat_low4 hop),
    Laws.FixedBits.byte0_and_70 _ _, Laws.FixedBits.byte1_and_80 _⟩

/-- Settles O21: the payload byte was masked with the key byte that unmasks it. -/
theorem roundTripLaw : Obligations.RoundTripLaw := by
  intro s t r d h hd hs i hi
  obtain ⟨_, rfl⟩ := execEncode_success h hd hs
  rw [successResponse_payload_getD r s hi, successResponse_key_getD r s (Nat.mod_lt i (by decide)), keyLane_mod,
    BitVec.xor_assoc, BitVec.xor_self, BitVec.xor_zero]

/-- Settles O23: no payload byte follows the key. -/
theorem emptyPayloadFrame : Obligations.EmptyPayloadFrame := by
  intro s r hlen hpass ha hcount
  have ⟨hop, _, _⟩ := hpass
  have hexec := execEncode_eq_encoded ((lengthTrue_iff s r).2 hlen) ((checkRequest_eq_none_iff s r).2 hpass) ha
  exact ⟨_, _, hexec, rfl, rfl,
    congrArg (fun resp => some (Delivered.mk r resp)) (successResponse_of_count_zero s hop hcount)⟩

/-- Settles O24: both machines find the same error, or both answer with the same function of request, payload and key. -/
theorem responseDependsOnPayloadAndDraw : Obligations.ResponseDependsOnPayloadAndDraw := by
  intro s s' t r hmax _ hlen' hpay hkey hans h
  have hl' : lengthTrue s' r = true := (lengthTrue_iff s' r).2 hlen'
  obtain ⟨_, ⟨e, hc, rfl⟩ | ⟨hc, ha, rfl⟩⟩ := execEncode_next h <;> rw [checkRequest_congr hmax] at hc
  · exact ⟨_, execEncode_error hl' hc, rfl⟩
  · refine ⟨_, execEncode_eq_encoded hl' hc (hans ▸ ha), ?_⟩
    exact congrArg (fun resp => some (Delivered.mk r resp)) (successResponse_congr hkey hpay).symm

end Sys2Proof.Proofs
end

section
/-! PROOFS. The header packer on its own: the shape of a count, and bytes 0 and 1 in OUT (41_header_packer R105 to R107). -/

namespace Sys2Proof.Machine

/-- A byte that has room in OUT is stored, and besides OUT only `P` changes. -/
theorem memWrite_storesAt {p : Nat} {s : State} (v : Byte) (h : FrameRoom s p 1) :
    ∃ t, memWrite p v s = .next t ∧ StoresAt p [v] s t := by
  obtain ⟨t, e, hstores⟩ := memWriteList_storesAt [v] h
  obtain ⟨_, hwrite, hnil⟩ := andThen_eq_next e
  cases hnil
  exact ⟨t, hwrite, hstores⟩

/-- HP.LENSEL sets `SEL`, `H` and `L7` to the shape of its operand, and nothing else. -/
theorem exec_hpLensel_of_shape {cnt : BitVec 64} {sh : Shape} (h : shape cnt = sh) (s : State) :
    exec (.hpLensel cnt) s = .next { s with regs := { s.regs with sel := sh.sel, h := sh.h, l7 := sh.l7 } } := by
  subst h
  rfl

end Sys2Proof.Machine

namespace Sys2Proof.Proofs
open Sys2Proof.Machine

/-- Settles O28: HP.BYTE0 is a write of byte 0, in whose pattern bits 6 to 4 are zero. -/
theorem byteZeroIsStored : Obligations.ByteZeroIsStored := by
  intro fin opc s hroom
  obtain ⟨t, e, hstores⟩ := memWrite_storesAt (byte0 fin opc) hroom
  exact ⟨t, byte0 fin opc, e, hstores, rfl, Laws.FixedBits.byte0_and_70 fin opc⟩

/-- Settles O29: HP.BYTE1 is a write of byte 1, whose low seven bits are L7 and whose top bit is set. -/
theorem byteOneIsStored : Obligations.ByteOneIsStored := by
  intro l7 s hroom
  obtain ⟨t, e, hstores⟩ := memWrite_storesAt (byte1 l7) hroom
  exact ⟨t, byte1 l7, e, hstores, rfl, Laws.FixedBits.byte1_and_7F l7, Laws.FixedBits.byte1_and_80 l7⟩

/-- Settles O27: the three ranges are those of the header shape, which compares the whole of CNT. -/
theorem lenselSetsTheShape : Obligations.LenselSetsTheShape := fun _ s =>
  ⟨fun hlt => exec_hpLensel_of_shape (shape_of_lt_126 hlt) s,
    fun hge hlt => exec_hpLensel_of_shape (shape_of_lt_65536 hge hlt) s,
    fun hge => exec_hpLensel_of_shape (shape_of_ge_65536 hge) s⟩

end Sys2Proof.Proofs
end

section
/-! PROOFS. The masked payload as a function of key and payload, and the byte MK.XOR stores (42_mask_unit R122, R125,
R126). -/

namespace Sys2Proof.Machine

/-- The key byte of payload index `i`, taken from the key as it is laid down (R122). -/
theorem keyBytes_getD_mod (k : Key) (i : Nat) : (keyBytes k).getD (i % 4) 0 = keyLane k i := by
  rw [keyBytes_getD k (Nat.mod_lt i (by decide)), keyLane_mod]

/-- A key of four equal bytes has that byte in every lane. -/
theorem keyLane_const (b : Byte) (i : Nat) : keyLane ⟨b, b, b, b⟩ i = b := by
  unfold keyLane
  split <;> rfl

/-- Lane `i` of the key rotated by `r` is lane `r + i` of the key (R125). -/
theorem keyLane_rot (k : Key) (r i : Nat) : keyLane (rot k r) i = keyLane k (r + i) := by
  have hi : i % 4 < 4 := Nat.mod_lt i (by decide)
  rw [← keyLane_mod k (r + i), ← Nat.add_mod_mod, keyLane_mod, ← keyLane_mod (rot k r)]
  interval_cases i % 4 <;> rfl

/-- A rotation looks at its distance modulo 4 only. -/
theorem rot_mod (k : Key) (r : Nat) : rot k (r % 4) = rot k r := by
  have hlane (j : Nat) : keyLane k (r % 4 + j) = keyLane k (r + j) := by
    rw [← keyLane_mod, Nat.mod_add_mod, keyLane_mod]
  simp only [rot, hlane, keyLane_mod]

/-- A payload in two pieces: the second is masked from the index on where the first ends. -/
theorem maskedFrom_append (k : Key) (i : Nat) (p q : List Byte) :
    maskedFrom k i (p ++ q) = maskedFrom k i p ++ maskedFrom k (i + p.length) q := by
  induction p generalizing i with
  | nil => rfl
  | cons b p ih => simp [maskedFrom, ih, Nat.add_assoc, Nat.add_comm 1]

/-- Masking from index `r` on is masking with the key rotated by `r`. -/
theorem maskedFrom_eq_masked_rot (k : Key) (r : Nat) (p : List Byte) : maskedFrom k r p = masked (rot k r) p :=
  List.ext_getElem (by simp) fun i _ _ => by rw [maskedFrom_getElem, masked_getElem, keyLane_rot]

/-- The split law of R125. -/
theorem masked_append (k : Key) (p q : List Byte) :
    masked k (p ++ q) = masked k p ++ masked (rot k (p.length % 4)) q := by
  rw [rot_mod, ← maskedFrom_eq_masked_rot, masked, maskedFrom_append, Nat.zero_add, masked]

/-- Masking is its own inverse (R125). -/
theorem masked_masked (k : Key) (p : List Byte) : masked k (masked k p) = p :=
  List.ext_getElem (by simp) fun i _ _ => by
    rw [masked_getElem, masked_getElem, BitVec.xor_assoc, BitVec.xor_self, BitVec.xor_zero]

/-- A key of four equal bytes masks every payload byte alike. -/
theorem masked_const_key (b : Byte) (p : List Byte) : masked ⟨b, b, b, b⟩ p = p.map (· ^^^ b) :=
  List.ext_getElem (by simp) fun i _ _ => by rw [masked_getElem, keyLane_const, List.getElem_map]

/-- The zero key masks nothing (R125, R126). -/
theorem masked_zero_key (p : List Byte) : masked ⟨0, 0, 0, 0⟩ p = p := by
  simp [masked_const_key]

/-- A payload of `n` equal bytes lays the key bare, XORed with that byte (R126). -/
theorem masked_replicate (k : Key) (n : Nat) (b : Byte) :
    masked k (List.replicate n b) = (List.range n).map fun i => b ^^^ (keyBytes k).getD (i % 4) 0 :=
  List.ext_getElem (by simp) fun i _ _ => by
    rw [masked_getElem, List.getElem_replicate, List.getElem_map, List.getElem_range, keyBytes_getD_mod]

end Sys2Proof.Machine

namespace Sys2Proof.Proofs
open Sys2Proof.Machine

/-- Settles O34: inside the buffer MK.XOR is the write of one byte, the masked one. -/
theorem maskedByteIsStored : Obligations.MaskedByteIsStored := by
  intro idx s r hcmd hlen hbuf hroom
  obtain ⟨t, e, hstores⟩ := memWrite_storesAt (s := { s with regs := { s.regs with idx := idx } })
    ((bufferOf s r).read (s.regs.off.toNat + idx.toNat) ^^^ keyLane s.regs.key idx.toNat) hroom
  refine ⟨t, (execMkXor_inBuffer hcmd hlen hbuf).trans e, ?_⟩
  rw [← keyBytes_getD_mod] at hstores
  exact hstores

/-- Settles O37: the masked payload byte by byte, masking undone by masking, and an index offset as a rotation of
the key. -/
theorem maskedPayloadLaws : Obligations.MaskedPayloadLaws := by
  refine ⟨masked_length, fun k p i hi => ?_, masked_masked, masked_zero_key, masked_append⟩
  have hmask : i < (masked k p).length := by rwa [masked_length]
  rw [List.getD_eq_getElem (hn := hmask), List.getD_eq_getElem (hn := hi), masked_getElem, ← keyBytes_getD_mod,
    keyBytes]

/-- Settles O38: the corners are a key of equal bytes and a payload of equal bytes, and XOR with FF is
the complement. -/
theorem cornerKeysAndPayloads : Obligations.CornerKeysAndPayloads := by
  have hxor (b : Byte) : b ^^^ 0xFF#8 = ~~~b := BitVec.xor_allOnes
  have hxor' (b : Byte) : 0xFF#8 ^^^ b = ~~~b := BitVec.allOnes_xor
  refine ⟨masked_zero_key, fun p => ?_, fun k n => ?_, fun k n => ?_⟩
  · exact (masked_const_key 0xFF p).trans (List.map_congr_left fun b _ => hxor b)
  · exact (masked_replicate k n 0).trans (List.map_congr_left fun _ _ => BitVec.zero_xor)
  · exact (masked_replicate k n 0xFF).trans (List.map_congr_left fun _ _ => hxor' _)

end Sys2Proof.Proofs
end

section
/-! PROOFS. Weak fairness (60_exceptions R148, log 7): a request that waits comes nearer to its turn with every step, in its place
and then in the allowance of the oldest, so each run serves it. -/

namespace Sys2Proof.Machine

/-- Taking another element out of a list moves an element no further back. -/
theorem idxOf_eraseIdx_le {α : Type} [DecidableEq α] {x : α} {l : List α} {k : Nat} (hk : k < l.length) (hx : l[k] ≠ x) :
    (l.eraseIdx k).idxOf x ≤ l.idxOf x := by
  induction l generalizing k with
  | nil => cases hk
  | cons y l ih =>
    cases k with
    | zero => exact (Nat.le_succ _).trans_eq (List.idxOf_cons_ne l hx).symm
    | succ k =>
      rw [List.eraseIdx_cons_succ]
      by_cases hy : y = x
      · exact (List.idxOf_cons_eq _ hy).trans_le (Nat.zero_le _)
      · rw [List.idxOf_cons_ne _ hy, List.idxOf_cons_ne _ hy]
        exact Nat.succ_le_succ (ih (Nat.lt_of_succ_lt_succ hk) hx)

/-- How far a waiting word is from its turn: first its place in the order of arrival, then how often the oldest may still be passed
over. -/
def waitingRank (w : OpWord) (s : State) : Nat ×ₗ Nat := toLex (s.inbox.idxOf w, s.arbiter.patience)

/-- Where another word is taken, a waiting word comes nearer to its turn: the oldest left, or it was passed over. -/
theorem takeWord_waitingRank_lt {s u : State} {w x : OpWord} (h : takeWord s = some (w, u)) (hwx : w ≠ x)
    (hx : x ∈ s.inbox) : waitingRank x u < waitingRank x s := by
  obtain ⟨v, ws, hs⟩ := List.exists_cons_of_ne_nil (List.ne_nil_of_mem hx)
  rw [waitingRank, waitingRank, Prod.Lex.toLex_lt_toLex', hs]
  rcases takeWord_oldest hs h with ⟨rfl, hu⟩ | ⟨_, hpatience, k, hk, rfl, hu⟩
  · have hlt : u.inbox.idxOf x < (w :: ws).idxOf x := by
      rw [hu, List.idxOf_cons_ne ws hwx]
      exact Nat.lt_succ_self _
    exact ⟨hlt.le, fun heq => absurd heq hlt.ne⟩
  · have hle : u.inbox.idxOf x ≤ (v :: ws).idxOf x := by
      rw [hu]
      exact idxOf_eraseIdx_le (k := k + 1) (l := v :: ws) (Nat.succ_lt_succ hk) hwx
    exact ⟨hle, fun _ => by show u.arbiter.patience < s.arbiter.patience; omega⟩

/-- An ENCODE that has a next state leaves a response to its own request pending. -/
theorem execEncode_pending {r : Request} {s t : State} (h : execEncode r s = .next t) :
    ∃ d, t.pending = some d ∧ d.req = r := by
  obtain ⟨_, ⟨_, _, rfl⟩ | ⟨_, _, rfl⟩⟩ := execEncode_next h <;> exact ⟨_, rfl, rfl⟩

/-- A step serves a given waiting request, or that request still waits and has come nearer to its turn. -/
theorem step_serves_or_waits_nearer {s t : State} {r : Request} (h : step s = .next t)
    (hr : OpWord.request r ∈ s.inbox) :
    (∃ d, t.delivered = s.delivered ++ [d] ∧ d.req = r) ∨
    (OpWord.request r ∈ t.inbox ∧ waitingRank (.request r) t < waitingRank (.request r) s) := by
  rcases step_next_cases h with ⟨hnil, _⟩ | ⟨w, u, i, v, htake, hdec, hexec, rfl⟩
  · rw [hnil] at hr; cases hr
  have hkept := exec_hostKept hexec
  by_cases hw : w = .request r
  · subst hw
    obtain rfl := decode_request_eq_ok hdec
    obtain ⟨d, hpending, hd⟩ := execEncode_pending hexec
    obtain ⟨_, _, _, ws, a, rfl⟩ := takeWord_waited htake
    exact .inl ⟨d, by rw [deliver_delivered, hkept.delivered, hpending]; rfl, hd⟩
  · have hu : OpWord.request r ∈ u.inbox :=
      List.mem_of_ne_of_mem (Ne.symm hw) ((takeWord_perm htake).mem_iff.1 hr)
    have hrank := takeWord_waitingRank_lt htake hw hr
    rw [waitingRank, ← hkept.inbox, ← hkept.arbiter] at hrank
    rw [← hkept.inbox] at hu
    exact .inr ⟨by rwa [deliver_inbox], by rwa [waitingRank, deliver_inbox, deliver_arbiter]⟩

/-- Requests that arrive wait behind: a word that waits is as far from its turn as before. -/
theorem HostsAct.waits {s s' : State} {w : OpWord} (h : HostsAct s s') (hw : w ∈ s.inbox) :
    w ∈ s'.inbox ∧ waitingRank w s' = waitingRank w s ∧ s'.delivered = s.delivered := by
  obtain ⟨rs, hinbox, harbiter, hdelivered⟩ := h
  refine ⟨hinbox ▸ List.mem_append_left _ hw, ?_, hdelivered⟩
  rw [waitingRank, waitingRank, hinbox, harbiter, List.idxOf_append_of_mem hw]

/-- From one state of a run to the next a waiting request is served, or it still waits and has come nearer to its turn. -/
theorem RunsWithHosts.serves_or_waits_nearer {run : Nat → State} (hrun : RunsWithHosts run) {m : Nat} {r : Request}
    (hr : OpWord.request r ∈ (run m).inbox) :
    (∃ d, (run (m + 1)).delivered = (run m).delivered ++ [d] ∧ d.req = r) ∨
    (OpWord.request r ∈ (run (m + 1)).inbox ∧
      waitingRank (.request r) (run (m + 1)) < waitingRank (.request r) (run m)) := by
  obtain ⟨s, hact, hstep⟩ := hrun m
  obtain ⟨hs, hrank, hdelivered⟩ := hact.waits hr
  rw [← hrank, ← hdelivered]
  exact step_serves_or_waits_nearer hstep hs

/-- Delivered responses stay through a run (10_state R94). -/
theorem RunsWithHosts.delivered_length_le {run : Nat → State} (hrun : RunsWithHosts run) (m : Nat) :
    (run m).delivered.length ≤ (run (m + 1)).delivered.length := by
  obtain ⟨s, ⟨_, _, _, hdelivered⟩, hstep⟩ := hrun m
  rw [← hdelivered]
  rcases (step_delivered hstep).1 with h | ⟨d, h⟩ <;> rw [h]
  rw [List.length_append]
  exact Nat.le_add_right _ _

end Sys2Proof.Machine

namespace Sys2Proof.Proofs
open Sys2Proof.Machine

/-- Settles O52, by well-founded induction on how far the request is from its turn, which every step that does not serve it
lessens. -/
theorem everyWaitingRequestIsServedEventually : Obligations.EveryWaitingRequestIsServedEventually := by
  intro run hrun m r hr
  induction hrank : waitingRank (.request r) (run m) using WellFoundedLT.induction generalizing m with
  | ind rank ih =>
    subst hrank
    rcases hrun.serves_or_waits_nearer hr with ⟨d, hdelivered, hd⟩ | ⟨hwaits, hnearer⟩
    · refine ⟨m + 1, d, Nat.lt_succ_self m, ?_, hd⟩
      rw [hdelivered, List.drop_left]
      exact List.mem_singleton_self d
    · obtain ⟨n, d, hn, hmem, hd⟩ := ih _ hnearer (m + 1) hwaits rfl
      exact ⟨n, d, Nat.lt_of_succ_lt hn, List.drop_subset_drop_left _ (hrun.delivered_length_le m) hmem, hd⟩

end Sys2Proof.Proofs
end

section
/-! PROOFS. The service choice (60_exceptions R148, log 7): the word at the picked place is taken, and every place can be
picked. -/

namespace Sys2Proof.Machine

/-- The word taken is the one at the place the arbiter picks, the oldest where it is alone; the others go on waiting. -/
theorem takeWord_picked {s : State} {ws : List OpWord} (hs : s.inbox = ws)
    (hpick : s.arbiter.pick ws.length < ws.length) :
    ∃ a, takeWord s = some (ws[s.arbiter.pick ws.length],
      { s with inbox := ws.eraseIdx (s.arbiter.pick ws.length), arbiter := a }) := by
  match ws with
  | [] => cases hpick
  | [w] =>
    have holdest : s.arbiter.pick 1 = 0 := Nat.lt_one_iff.1 hpick
    refine ⟨s.arbiter.cleared, ?_⟩
    simp [takeWord_of_singleton hs, holdest]
  | w :: v :: ws =>
    refine ⟨s.arbiter.after (s.arbiter.pick (ws.length + 2)), ?_⟩
    simp only [takeWord, hs]
    rw [← List.getD_eq_getElem (d := w)]
    rfl

/-- An arbiter whose next choice is a given place. -/
def Arbiter.choosing (k : Nat) : Arbiter where
  pinned := [k]
  used := 0
  allowance := some 1

theorem Arbiter.pick_choosing {k n : Nat} (h : k < n) : (Arbiter.choosing k).pick n = k :=
  Nat.mod_eq_of_lt h

end Sys2Proof.Machine

namespace Sys2Proof.Proofs
open Sys2Proof.Machine

/-- Settles O9: the arbiter picks a place that is there, and any place is the pick of some arbiter. -/
theorem anyWaitingRequestMayBeServed : Obligations.AnyWaitingRequestMayBeServed := by
  refine ⟨fun s hne => ?_, fun s k hk => ⟨Arbiter.choosing k, ?_⟩⟩
  · have hpick := s.arbiter.pick_lt (List.length_pos_of_ne_nil hne)
    exact ⟨_, hpick, takeWord_picked rfl hpick⟩
  · have hpick := Arbiter.pick_choosing hk
    obtain ⟨b, htake⟩ := takeWord_picked (s := { s with arbiter := Arbiter.choosing k }) rfl (hpick.symm ▸ hk)
    simp only [hpick] at htake
    exact ⟨b, htake⟩

end Sys2Proof.Proofs
end

section
/-! PROOFS. What an ENCODE answers to a request that fails a test, and what it does without an answer to the draw (60_exceptions
R135 to R137, R140 to R142, 70_reset_and_hazards R164). -/

namespace Sys2Proof.Machine

/-- A request that fails a test has a first test that it fails. -/
theorem exists_error_of_not_passes {s : State} {r : Request} (h : ¬ Passes s r) : ∃ e, checkRequest s.cfg r = some e :=
  Option.ne_none_iff_exists'.1 (mt (checkRequest_eq_none_iff s r).1 h)

/-- An ENCODE whose response is no success has raised the error of the first test that fails. -/
theorem execEncode_raised {r : Request} {s t : State} {d : Delivered} (h : execEncode r s = .next t)
    (hd : t.pending = some d) (hstatus : d.resp.status ≠ statusOk) :
    lengthTrue s r = true ∧ ∃ e, checkRequest s.cfg r = some e ∧ t = raiseError e r s := by
  obtain ⟨hlen, ⟨e, hc, rfl⟩ | ⟨_, _, rfl⟩⟩ := execEncode_next h
  · exact ⟨hlen, e, hc, rfl⟩
  · cases hd
    exact absurd rfl hstatus

/-- Buffers and parameters are as before an error, so the same request fails the same test again (R141, R142). -/
theorem execEncode_raiseError {r : Request} {s : State} {e : Err} (hl : lengthTrue s r = true)
    (hc : checkRequest s.cfg r = some e) : execEncode r (raiseError e r s) = .next (raiseError e r s) :=
  execEncode_error (s := raiseError e r s) hl hc

end Sys2Proof.Machine

namespace Sys2Proof.Proofs
open Sys2Proof.Machine

/-- Settles O12: the first test that fails names the error, and raising it changes nothing but what ends the command. -/
theorem encodeReportsTheFirstError : Obligations.EncodeReportsTheFirstError := by
  intro s r hlen
  have hl : lengthTrue s r = true := (lengthTrue_iff s r).2 hlen
  refine ⟨fun hop => ?_, fun hop hcount => ?_, fun hop hcount hrange => ?_⟩
  · exact execEncode_error hl (checkRequest_invalidOpcode s.cfg hop)
  · exact execEncode_error hl (checkRequest_sizeError hop hcount)
  · exact execEncode_error hl (checkRequest_invalidRange hop hcount hrange)

/-- Settles O14: the draw comes after the three tests, and only a request that passes them reaches it. -/
theorem encodeHasNoStepWithoutAnswer : Obligations.EncodeHasNoStepWithoutAnswer := by
  intro s r hlen ha
  have hl : lengthTrue s r = true := (lengthTrue_iff s r).2 hlen
  refine ⟨fun hpass => ?_, fun hfail => ?_⟩
  · exact execEncode_stuck hl ((checkRequest_eq_none_iff s r).2 hpass) ha
  · obtain ⟨e, hc⟩ := exists_error_of_not_passes hfail
    exact ⟨_, execEncode_error hl hc⟩

/-- Settles O16: the tests read only the buffers and the parameters, which an error leaves as they were. -/
theorem retryRepeatsTheError : Obligations.RetryRepeatsTheError := by
  intro s t r d hexec hd hstatus
  obtain ⟨hl, e, hc, rfl⟩ := execEncode_raised hexec hd hstatus
  exact execEncode_raiseError hl hc

end Sys2Proof.Proofs
end

section
/-! PROOFS. What ENCODE answers after the reset event (70_reset_and_hazards R160, R161): the event takes nothing that the tests
or the header are made of. -/

namespace Sys2Proof.Machine

/-- The reset event keeps the buffers, so a true length stays true (R160, log 17). -/
@[simp] theorem lengthTrue_resetEvent (s : State) (r : Request) : lengthTrue (resetEvent s) r = lengthTrue s r := rfl

end Sys2Proof.Machine

namespace Sys2Proof.Proofs
open Sys2Proof.Machine

/-- Settles O48: the same test fails with the event, or both runs answer with a frame whose header is that of the request; only
the drawn key may differ. -/
theorem resetEventIsInvisible : Obligations.ResetEventIsInvisible := by
  intro s t r d _ hexec hd
  obtain ⟨hl, hcases⟩ := execEncode_next hexec
  rw [← lengthTrue_resetEvent] at hl
  rw [← resetEvent_cfg] at hcases
  obtain ⟨e, hc, rfl⟩ | ⟨hc, ha, rfl⟩ := hcases <;> cases hd
  · exact ⟨_, _, execEncode_error hl hc, rfl, rfl, rfl, rfl⟩
  · refine ⟨_, _, execEncode_eq_encoded hl hc ha, rfl, rfl, rfl, ?_⟩
    exact (successResponse_take_header r _).trans (successResponse_take_header r s).symm

end Sys2Proof.Proofs
end

section
/-! PROOFS. The adapter from software integers to request fields (70_reset_and_hazards R169). -/

namespace Sys2Proof.Machine

/-- An integer that fits a width is carried exactly. -/
theorem toNat_ofInt_of_fits {w : Nat} {z : Int} (h0 : 0 ≤ z) (h : z < 2 ^ w) : ((BitVec.ofInt w z).toNat : Int) = z := by
  rw [BitVec.toNat_ofInt, Int.emod_eq_of_lt h0 (by exact_mod_cast h), Int.toNat_of_nonneg h0]

theorem adaptOpcode_toNat_of_fits {z : Int} (h0 : 0 ≤ z) (h : z < 256) : ((adaptOpcode z).toNat : Int) = z := by
  rw [adaptOpcode, if_pos ⟨h0, h⟩]
  exact toNat_ofInt_of_fits h0 h

theorem adaptOpcode_of_not_fits {z : Int} (h : ¬ (0 ≤ z ∧ z < 256)) : adaptOpcode z = 255 := if_neg h

theorem adaptWide_toNat_of_fits {z : Int} (h0 : 0 ≤ z) (h : z < 2 ^ 64) : ((adaptWide z).toNat : Int) = z := by
  rw [adaptWide, if_pos ⟨h0, h⟩]
  exact toNat_ofInt_of_fits h0 h

theorem adaptWide_of_not_fits {z : Int} (h : ¬ (0 ≤ z ∧ z < 2 ^ 64)) : adaptWide z = BitVec.ofNat 64 (2 ^ 64 - 1) :=
  if_neg h

/-- An illegal opcode comes out illegal: carried as it is, or as 255. -/
theorem adaptOpcode_illegal {z : Int} (h : z < 0 ∨ 15 < z) : 15 < (adaptOpcode z).toNat := by
  by_cases hfits : 0 ≤ z ∧ z < 256
  · have := adaptOpcode_toNat_of_fits hfits.1 hfits.2
    omega
  · rw [adaptOpcode_of_not_fits hfits]
    decide

/-- An illegal count or offset comes out illegal: carried as it is, or as 2^64 - 1. -/
theorem adaptWide_illegal {z : Int} (h : z < 0 ∨ 2 ^ 63 ≤ z) : 2 ^ 63 ≤ (adaptWide z).toNat := by
  by_cases hfits : 0 ≤ z ∧ z < 2 ^ 64
  · have := adaptWide_toNat_of_fits hfits.1 hfits.2
    omega
  · rw [adaptWide_of_not_fits hfits]
    decide

end Sys2Proof.Machine

namespace Sys2Proof.Proofs
open Sys2Proof.Machine

/-- Settles O50: what fits is carried exactly, and what does not fit comes out as the largest value of the field. -/
theorem adapterNeverTruncates : Obligations.AdapterNeverTruncates :=
  ⟨fun _ => adaptOpcode_toNat_of_fits, fun _ => adaptOpcode_illegal, fun _ => adaptWide_toNat_of_fits,
    fun _ => adaptWide_illegal⟩

end Sys2Proof.Proofs
end
